-- ==== Sys2Proof/Word.lean ====
section
/-! DEFINITION. The widths of rules R7 and R8: words, bytes, register indices and sequence numbers. -/

namespace Sys2Proof

/-- A memory byte. The hardware only moves whole words (R67); bytes are how the model lists memory. -/
abbrev Byte := BitVec 8

/-- `XLEN` = 32: a register, an operand, a result, an address, a memory word, an instruction (R7). -/
abbrev Word := BitVec 32

/-- A 5-bit register index, 0 to 31 (R8). -/
abbrev RegIdx := BitVec 5

/-- A 6-bit opcode or aluOp field (R8). -/
abbrev Code := BitVec 6

/-- The 64-bit sequence number `instNo` (R8). -/
abbrev InstNo := BitVec 64

/-- One bank of the RegisterFile: 32 words (R8, R21). -/
abbrev Bank := Vector Word 32

end Sys2Proof
end

