-- ==== Sys2Proof/Syntax.lean ====
section
/-! DEFINITION. The instructions of `spec/opcode_table.json`, one constructor a row. -/

namespace Sys2Proof

/-- The thirteen instructions of DPS-REF (R2). Operands stand in the order of the assembler syntax of R113; register
operands are numbers, because R115 speaks of decoders over wider integers, and `Instr.wellFormed` bounds them;
immediates are the 16-bit field `imm16` (R99). -/
inductive Instr where
  /-- `NOP` (R170). -/
  | nop
  /-- `ADD rd, rs, rt` (R131). -/
  | add (rd rs rt : Nat)
  /-- `SUB rd, rs, rt` (R132). -/
  | sub (rd rs rt : Nat)
  /-- `AND rd, rs, rt` (R133). -/
  | and (rd rs rt : Nat)
  /-- `OR rd, rs, rt` (R134). -/
  | or (rd rs rt : Nat)
  /-- `XOR rd, rs, rt` (R135). -/
  | xor (rd rs rt : Nat)
  /-- `SLT rd, rs, rt` (R136). -/
  | slt (rd rs rt : Nat)
  /-- `ADDI rt, rs, imm`: `rt` is the destination (R137). -/
  | addi (rt rs : Nat) (imm : BitVec 16)
  /-- `LW rt, imm(rs)`: `rt` is the destination, `rs` the base (R150). -/
  | lw (rt : Nat) (imm : BitVec 16) (rs : Nat)
  /-- `SW rt, imm(rs)`: `rt` is the data source, `rs` the base (R151). -/
  | sw (rt : Nat) (imm : BitVec 16) (rs : Nat)
  /-- `BEQ rs, rt, off` (R163). -/
  | beq (rs rt : Nat) (off : BitVec 16)
  /-- `BNE rs, rt, off` (R164). -/
  | bne (rs rt : Nat) (off : BitVec 16)
  /-- `HALT` (R171). -/
  | halt
  deriving DecidableEq, Repr

end Sys2Proof
end

