-- ==== Sys2Proof/Decode.lean ====
section
/-! DEFINITION. The words of DPS-REF: bit fields, the opcode map of rules R101 to R112 and R117 as a table of patterns
and masks, the decoder that searches it, byte order, and the encoder written from the formats of R96 to R98. -/

namespace Sys2Proof

/-! ### Bit fields (R10) -/

/-- `w[31:26]`, the field `op` of every format (R96 to R98). -/
def opField (w : Word) : Code := w.extractLsb' 26 6

/-- `w[25:21]`, the field `rs` (R96, R97). -/
def rsField (w : Word) : RegIdx := w.extractLsb' 21 5

/-- `w[20:16]`, the field `rt` (R96, R97). -/
def rtField (w : Word) : RegIdx := w.extractLsb' 16 5

/-- `w[15:11]`, the field `rd` of format R (R96). -/
def rdField (w : Word) : RegIdx := w.extractLsb' 11 5

/-- `w[10:6]`, the field `zero` of format R (R96). -/
def zeroField (w : Word) : BitVec 5 := w.extractLsb' 6 5

/-- `w[5:0]`, the field `funct` of format R (R96). -/
def functField (w : Word) : Code := w.extractLsb' 0 6

/-- `w[15:0]`, the field `imm16` of format I (R97, R99). -/
def immField (w : Word) : BitVec 16 := w.extractLsb' 0 16

/-- `sext_32` of R12 and R99. -/
def sext32 (imm : BitVec 16) : Word := imm.signExtend 32

/-- A byte address that is a multiple of 4: `a[1:0] = 0` (R63, R64, R70). -/
def isWordAddress (a : Word) : Bool := a.extractLsb' 0 2 == 0#2

/-! ### The opcode map -/

/-- One row of the opcode map: a word `w` is this row's when `w &&& mask = pattern`, and `build` reads its operands. -/
structure OpcodeRow where
  mnemonic : String
  pattern : Word
  mask : Word
  build : Word → Instr

/-- Operands of format R in assembler order `rd, rs, rt` (R96, R113). -/
def formatR (mk : Nat → Nat → Nat → Instr) (w : Word) : Instr :=
  mk (rdField w).toNat (rsField w).toNat (rtField w).toNat

/-- Operands of format I as `rt, rs, imm16` (R97). -/
def formatI (mk : Nat → Nat → BitVec 16 → Instr) (w : Word) : Instr :=
  mk (rtField w).toNat (rsField w).toNat (immField w)

/-- The thirteen rows (R101 to R112, R117), in the order of `spec/opcode_table.json`. -/
def opcodeTable : List OpcodeRow :=
  [ ⟨"NOP", 0x00000000, 0xFFFFFFFF, fun _ => .nop⟩,
    ⟨"ADD", 0x04000001, 0xFC0007FF, formatR .add⟩,
    ⟨"SUB", 0x04000002, 0xFC0007FF, formatR .sub⟩,
    ⟨"AND", 0x04000003, 0xFC0007FF, formatR .and⟩,
    ⟨"OR", 0x04000004, 0xFC0007FF, formatR .or⟩,
    ⟨"XOR", 0x04000005, 0xFC0007FF, formatR .xor⟩,
    ⟨"SLT", 0x04000006, 0xFC0007FF, formatR .slt⟩,
    ⟨"ADDI", 0x08000000, 0xFC000000, formatI fun rt rs imm => .addi rt rs imm⟩,
    ⟨"LW", 0x0C000000, 0xFC000000, formatI fun rt rs imm => .lw rt imm rs⟩,
    ⟨"SW", 0x10000000, 0xFC000000, formatI fun rt rs imm => .sw rt imm rs⟩,
    ⟨"BEQ", 0x14000000, 0xFC000000, formatI fun rt rs imm => .beq rs rt imm⟩,
    ⟨"BNE", 0x18000000, 0xFC000000, formatI fun rt rs imm => .bne rs rt imm⟩,
    ⟨"HALT", 0xFC000000, 0xFFFFFFFF, fun _ => .halt⟩ ]

/-! ### The decoder -/

/-- Why bytes are no instruction. -/
inductive DecodeReject where
  /-- The word has no mapping (R91, R116). -/
  | unknownOpcode (word : Word)
  /-- Fewer than the four bytes of a word are left; no rule of the spec meets this, which is about bytes only. -/
  | truncated (bytesLeft : Nat)
  deriving DecidableEq, Repr

/-- The row a word matches, if any. -/
def findRow (w : Word) : Option OpcodeRow := opcodeTable.find? fun r => w &&& r.mask == r.pattern

/-- The instruction of a word, or the verdict `UnknownOpcode` (R100 to R117). -/
def decodeWord (w : Word) : Except DecodeReject Instr :=
  match findRow w with
  | some r => .ok (r.build w)
  | none => .error (.unknownOpcode w)

/-- The word of four bytes, lowest address first. R66 leaves the byte order unobservable; least significant byte first
is the model's choice (DESIGN CHOICE, notes/assumptions/1.md, safe). -/
def wordOfBytes (b0 b1 b2 b3 : Byte) : Word := b3 ++ b2 ++ b1 ++ b0

/-- Byte `i` of a word, `i` = 0 the one at the lowest address. -/
def byteOfWord (w : Word) (i : Nat) : Byte := w.extractLsb' (8 * i) 8

/-- A word's bytes, lowest address first. -/
def bytesOfWord (w : Word) : List Byte := [byteOfWord w 0, byteOfWord w 1, byteOfWord w 2, byteOfWord w 3]

/-- The first instruction of a byte sequence with the bytes after it; every instruction is one word (R95). -/
def decodeBytes : List Byte → Except DecodeReject (Instr × List Byte)
  | b0 :: b1 :: b2 :: b3 :: rest =>
    match decodeWord (wordOfBytes b0 b1 b2 b3) with
    | .ok i => .ok (i, rest)
    | .error e => .error e
  | short => .error (.truncated short.length)

/-! ### The encoder -/

/-- Format R: `op, rs, rt, rd, zero, funct` from the high bits down, with `zero` = 0 (R96). -/
def encodeR (op funct : Code) (rd rs rt : Nat) : Word :=
  op ++ (BitVec.ofNat 5 rs) ++ (BitVec.ofNat 5 rt) ++ (BitVec.ofNat 5 rd) ++ 0#5 ++ funct

/-- Format I: `op, rs, rt, imm16` (R97). -/
def encodeI (op : Code) (rt rs : Nat) (imm : BitVec 16) : Word :=
  op ++ (BitVec.ofNat 5 rs) ++ (BitVec.ofNat 5 rt) ++ imm

/-- Format N: `op` above 26 zero bits (R98). -/
def encodeN (op : Code) : Word := op ++ 0#26

/-- The word of a well-formed instruction; opcode and funct values of R92, R94 and R101 to R117. -/
def encode : Instr → Word
  | .nop => encodeN 0x00
  | .add rd rs rt => encodeR 0x01 0x01 rd rs rt
  | .sub rd rs rt => encodeR 0x01 0x02 rd rs rt
  | .and rd rs rt => encodeR 0x01 0x03 rd rs rt
  | .or rd rs rt => encodeR 0x01 0x04 rd rs rt
  | .xor rd rs rt => encodeR 0x01 0x05 rd rs rt
  | .slt rd rs rt => encodeR 0x01 0x06 rd rs rt
  | .addi rt rs imm => encodeI 0x02 rt rs imm
  | .lw rt imm rs => encodeI 0x03 rt rs imm
  | .sw rt imm rs => encodeI 0x04 rt rs imm
  | .beq rs rt off => encodeI 0x05 rt rs off
  | .bne rs rt off => encodeI 0x06 rt rs off
  | .halt => encodeN 0x3F

/-- The four bytes of a well-formed instruction, lowest address first. -/
def encodeBytes (i : Instr) : List Byte := bytesOfWord (encode i)

/-! ### The host's numbering -/

/-- The instruction the decoder reads from an instruction whose low `nbits` bits are `w` and whose other bits are 0,
laid out as bytes. -/
def decodeTableWord (nbits w : Nat) : Option Instr :=
  match decodeBytes (bytesOfWord (BitVec.ofNat 32 (w % 2 ^ nbits))) with
  | .ok (i, []) => some i
  | .ok (_, _ :: _) => none
  | .error _ => none

end Sys2Proof
end

