-- ==== Sys2Proof/Config.lean ====
section
/-! DEFINITION. The parameters of rule R7. No value of this hardware is left open to a free value: the spec makes
every case total, so this file holds no opaque constant. `DECODE` is the parameter of `Sys2Proof.Machine.cycleWith`. -/

namespace Sys2Proof

/-- `PCSTEP`, the PC increment per fetched instruction (R7). -/
def Config.pcStep : Word := 4

/-- `INSTNO_FIRST`, the `instNo` given to the first fetched instruction (R7). -/
def Config.instNoFirst : InstNo := 1

/-- The parameters of R7 that the host hands over before reset (R316), other than `DECODE`. -/
structure Params where
  /-- `RESET_PC` (D2). -/
  resetPc : Word
  /-- `INIT_REGS`; entry 0 is not looked at (R54, D3). -/
  initRegs : Bank
  /-- `IMEM_IMAGE`, pairs of the byte address of a word and the word; of two entries for one address the first wins. -/
  imemImage : List (Word × Word)
  /-- `DMEM_IMAGE`, of the same shape (R58). -/
  dmemImage : List (Word × Word)
  deriving DecidableEq, Repr

/-- The defaults of R7; both images empty. -/
def Params.default : Params where
  resetPc := 0
  initRegs := Vector.replicate 32 0
  imemImage := []
  dmemImage := []

end Sys2Proof
end

