-- ==== Sys2Proof/Machine/State.lean ====
section
/-! DEFINITION. The complete state of rule R53 at a cycle boundary, as plain data, the reasons a cycle can end a run, and
the state after reset. -/

namespace Sys2Proof.Machine

/-- The `opcode` enum of R92. The values are `Opcode.code` in Control.lean. -/
inductive Opcode where
  | nop | alur | addi | lw | sw | beq | bne | halt
  deriving DecidableEq, Repr

/-- The `aluOp` enum of R94. The values are `AluOp.code` in Control.lean. -/
inductive AluOp where
  | none | add | sub | and | or | xor | slt
  deriving DecidableEq, Repr

/-- The three errors of R270, each with its recorded value. A cycle that raises one ends in a NEXT state whose `fault`
field holds it (R274, R282): no step of this model answers `Host.Outcome.fault`, since the spec gives the state after an
error. Safe: nothing is committed, as the spec says. -/
inductive Fault where
  /-- `OutOfRange(reg)`: the Decode stage raises it for a decoded register index above 31, and the RegisterFile's ports
  fail with it (R271, R22, R23). Safe: the spec's own error. -/
  | outOfRange (reg : Nat)
  /-- `MisalignedAccess(addr)`: the Memory stage raises it for LW and SW, the Fetch unit for the PC (R272). Safe: the
  spec's own error. -/
  | misalignedAccess (addr : Word)
  /-- `UnknownOpcode(word)`: the Decode stage raises it (R273). Safe: the spec's own error. -/
  | unknownOpcode (word : Word)
  deriving DecidableEq, Repr

/-- Why a step could have no meaning. -/
inductive Refusal where
  /-- An arm of `exec` not modelled yet would answer it. None does: every instruction has its meaning. Safe. -/
  | notModelled (mnemonic : String)
  deriving DecidableEq, Repr

/-- What `fault` records: the error, the `instNo` of the failing instruction and the cycle number (R47, R275). -/
structure ErrorReport where
  error : Fault
  instNo : InstNo
  cycle : Nat
  deriving DecidableEq, Repr

/-- The RegisterFile: two parallel banks, `committed` read this cycle and `pending` collecting writes (R20, R21). -/
structure RegFile where
  committed : Bank
  pending : Bank
  deriving DecidableEq, Repr

/-- Pipeline register IF/ID, current copy (R34). -/
structure IfId where
  instNo : InstNo
  instruction : Word
  pc : Word
  deriving DecidableEq, Repr

/-- Pipeline register ID/EX, current copy (R35). -/
structure IdEx where
  instNo : InstNo
  pc : Word
  opcode : Opcode
  aluOp : AluOp
  src1Reg : RegIdx
  src2Reg : RegIdx
  destReg : RegIdx
  operand1 : Word
  operand2 : Word
  immediate : Word
  deriving DecidableEq, Repr

/-- Pipeline register EX/MEM, current copy (R36). -/
structure ExMem where
  instNo : InstNo
  opcode : Opcode
  destReg : RegIdx
  result : Word
  storeValue : Word
  deriving DecidableEq, Repr

/-- Pipeline register MEM/WB, current copy (R37). -/
structure MemWb where
  instNo : InstNo
  opcode : Opcode
  destReg : RegIdx
  result : Word
  deriving DecidableEq, Repr

/-- `BUBBLE_IFID`: every field 0 (R14, R38). -/
def IfId.bubble : IfId := ⟨0, 0, 0⟩

/-- `BUBBLE_IDEX`: every field 0, `NOP` and `NONE` being the values 0 (R38). -/
def IdEx.bubble : IdEx := ⟨0, 0, .nop, .none, 0, 0, 0, 0, 0, 0⟩

/-- `BUBBLE_EXMEM` (R38). -/
def ExMem.bubble : ExMem := ⟨0, .nop, 0, 0, 0⟩

/-- `BUBBLE_MEMWB` (R38). -/
def MemWb.bubble : MemWb := ⟨0, .nop, 0, 0⟩

/-- A memory: (byte address, byte) pairs, addresses strictly rising, no entry equal to what an unlisted address reads as
(`Memory.wf` in Ops.lean). -/
abbrev Memory := List Host.Cell

/-- The machine at a cycle boundary (R53). The next copies of the latches carry nothing across a clock edge and are no
state (R33, R40); the hazard record is computed each cycle and is no state (R43). -/
structure State where
  /-- The address of the word Fetch reads this cycle (R28). -/
  pc : Word
  /-- The RegisterFile (R20, R21). -/
  regs : RegFile
  /-- Instruction memory, never written (R49). -/
  imem : Memory
  /-- Data memory (R50). -/
  dmem : Memory
  /-- IF/ID: the instruction in Decode (R34, R18). -/
  ifid : IfId
  /-- ID/EX: the instruction in Execute (R35, R18). -/
  idex : IdEx
  /-- EX/MEM: the instruction in Memory (R36, R18). -/
  exmem : ExMem
  /-- MEM/WB: the instruction in Writeback (R37, R18). -/
  memwb : MemWb
  /-- The `instNo` the next latched instruction receives (R41). -/
  nextInstNo : InstNo
  /-- A HALT has been decoded (R45). -/
  fetchStopped : Bool
  /-- A HALT has passed Writeback (R46). -/
  halted : Bool
  /-- The first error raised, if any (R47). -/
  fault : Option ErrorReport
  /-- The cycles committed since reset. The spec keeps this count outside the hardware, "by the driver or by the model"
  (R52, R275); only the error report reads it (DESIGN CHOICE, notes/assumptions/4.md, safe). -/
  cycles : Nat
  deriving DecidableEq, Repr

/-- The machine after reset with the default parameters of R7: rules R54 to R59 and R311. `RESET_PC` = 0 (D2),
`INIT_REGS` all 0 (D3), both images empty (notes/assumptions/2.md). -/
def State.reset : State where
  pc := 0
  regs := { committed := Vector.replicate 32 0, pending := Vector.replicate 32 0 }
  imem := []
  dmem := []
  ifid := IfId.bubble
  idex := IdEx.bubble
  exmem := ExMem.bubble
  memwb := MemWb.bubble
  nextInstNo := Config.instNoFirst
  fetchStopped := false
  halted := false
  fault := Option.none
  cycles := 0

end Sys2Proof.Machine
end

