-- ==== Sys2Proof/Machine/Control.lean ====
section
/-! DEFINITION. The contract between the core and any decoder (section 1 of 30_encoding.md): the enumerations' values, the
predicates on opcodes, the record a decoder answers, the Decode stage's check of it, and `REFDEC`. -/

namespace Sys2Proof.Machine

/-- The value of an `opcode` (R92). -/
def Opcode.code : Opcode → Code
  | .nop => 0x00
  | .alur => 0x01
  | .addi => 0x02
  | .lw => 0x03
  | .sw => 0x04
  | .beq => 0x05
  | .bne => 0x06
  | .halt => 0x3F

/-- The member of the `opcode` enum with a value, if there is one (R92). -/
def Opcode.ofCode (c : Code) : Option Opcode :=
  [Opcode.nop, .alur, .addi, .lw, .sw, .beq, .bne, .halt].find? fun o => o.code == c

/-- The value of an `aluOp` (R94). -/
def AluOp.code : AluOp → Code
  | .none => 0x00
  | .add => 0x01
  | .sub => 0x02
  | .and => 0x03
  | .or => 0x04
  | .xor => 0x05
  | .slt => 0x06

/-- The member of the `aluOp` enum with a value, if there is one (R94). -/
def AluOp.ofCode (c : Code) : Option AluOp :=
  [AluOp.none, .add, .sub, .and, .or, .xor, .slt].find? fun o => o.code == c

/-- `writesReg`: the instruction produces a register result (R93). -/
def Opcode.writesReg : Opcode → Bool
  | .alur | .addi | .lw => true
  | .nop | .sw | .beq | .bne | .halt => false

/-- `uses1`: `src1Reg` is needed (R93). -/
def Opcode.uses1 : Opcode → Bool
  | .alur | .addi | .lw | .sw | .beq | .bne => true
  | .nop | .halt => false

/-- `uses2`: `src2Reg` is needed (R93). -/
def Opcode.uses2 : Opcode → Bool
  | .alur | .sw | .beq | .bne => true
  | .nop | .addi | .lw | .halt => false

/-- `usesImm`: the ALU's second input is the immediate (R93). -/
def Opcode.usesImm : Opcode → Bool
  | .addi | .lw | .sw => true
  | .nop | .alur | .beq | .bne | .halt => false

/-- `isLoad` (R93). -/
def Opcode.isLoad : Opcode → Bool
  | .lw => true
  | .nop | .alur | .addi | .sw | .beq | .bne | .halt => false

/-- `isStore` (R93). -/
def Opcode.isStore : Opcode → Bool
  | .sw => true
  | .nop | .alur | .addi | .lw | .beq | .bne | .halt => false

/-- `isBranch` (R93). -/
def Opcode.isBranch : Opcode → Bool
  | .beq | .bne => true
  | .nop | .alur | .addi | .lw | .sw | .halt => false

/-- What a decoder hands the Decode stage: raw enum values, and register indices over the wider integers of R115. -/
structure RawFields where
  opcode : Code
  aluOp : Code
  src1Reg : Nat
  src2Reg : Nat
  destReg : Nat
  immediate : Word
  deriving DecidableEq, Repr

/-- A checked `DecodedFields` record (R90). -/
structure Decoded where
  opcode : Opcode
  aluOp : AluOp
  src1Reg : RegIdx
  src2Reg : RegIdx
  destReg : RegIdx
  immediate : Word
  deriving DecidableEq, Repr

/-- The all-zero record, which the zero word decodes to (R91 (a)). -/
def Decoded.zero : Decoded := ⟨.nop, .none, 0, 0, 0, 0⟩

/-- `DECODE`: a total pure function to fields or, as `none`, the verdict `UnknownOpcode` (R91). -/
abbrev Decoder := Word → Option RawFields

/-- The first of `src1Reg`, `src2Reg`, `destReg` above 31. The spec gives no order among several (DESIGN CHOICE,
notes/assumptions/5.md, unsafe for a claim about which index; only the report depends on it). -/
def RawFields.badIndex (f : RawFields) : Option Nat := [f.src1Reg, f.src2Reg, f.destReg].find? fun r => 31 < r

/-- The Decode stage's check of a decoder's answer for `word` (R115, R276: the enum check before the index check). -/
def checkFields (word : Word) : Option RawFields → Except Fault Decoded
  | none => .error (.unknownOpcode word)
  | some f =>
    match Opcode.ofCode f.opcode, AluOp.ofCode f.aluOp with
    | some op, some alu =>
      match f.badIndex with
      | some r => .error (.outOfRange r)
      | none => .ok ⟨op, alu, BitVec.ofNat 5 f.src1Reg, BitVec.ofNat 5 f.src2Reg, BitVec.ofNat 5 f.destReg, f.immediate⟩
    | some _, none => .error (.unknownOpcode word)
    | none, some _ => .error (.unknownOpcode word)
    | none, none => .error (.unknownOpcode word)

/-- A record of format R (R100, row of `op` 1). -/
def fieldsR (aluOp : Code) (rd rs rt : Nat) : RawFields := ⟨Opcode.alur.code, aluOp, rs, rt, rd, 0⟩

/-- The record of ADDI and LW: the destination is `rt` (R97, R100). -/
def fieldsLoadImm (op : Opcode) (rt rs : Nat) (imm : BitVec 16) : RawFields :=
  ⟨op.code, AluOp.add.code, rs, 0, rt, sext32 imm⟩

/-- The record of SW: `rt` is the second source (R97, R100). -/
def fieldsStore (rt rs : Nat) (imm : BitVec 16) : RawFields :=
  ⟨Opcode.sw.code, AluOp.add.code, rs, rt, 0, sext32 imm⟩

/-- The record of BEQ and BNE (R97, R100). -/
def fieldsBranch (op : Opcode) (rs rt : Nat) (off : BitVec 16) : RawFields :=
  ⟨op.code, AluOp.sub.code, rs, rt, 0, sext32 off⟩

/-- The record of NOP and HALT (R98, R100). -/
def fieldsN (op : Opcode) : RawFields := ⟨op.code, AluOp.none.code, 0, 0, 0, 0⟩

/-- A decoder that meets the contract of R91. Purity, totality and (e) hold of any Lean function of the word; (d) is about
how the immediate was made and bounds nothing here. -/
structure DecodeContract (dec : Decoder) : Prop where
  /-- R91 (a): the zero word's record is all zero. -/
  zeroWord : dec 0 = some (fieldsN .nop)
  /-- R91 (b), and R90's 5-bit indices: every answer passes the Decode stage's check. -/
  members : ∀ w f, dec w = some f → ∃ d, checkFields w (some f) = .ok d
  /-- R91 (c): an instruction that writes no register has `destReg` 0. -/
  noDest : ∀ w f d, dec w = some f → checkFields w (some f) = .ok d → d.opcode.writesReg = false → d.destReg = 0

/-- `REFDEC`, the rows of R100 in their order. It is written apart from `decodeWord`'s table; that the two agree is an
obligation. -/
def refdec : Decoder := fun w =>
  let op := opField w
  let rs := (rsField w).toNat
  let rt := (rtField w).toNat
  let imm := immField w
  if w = 0x00000000 then some (fieldsN .nop)
  else if op = 0x00 then none
  else if op = 0x01 then
    if zeroField w = 0 ∧ 1 ≤ (functField w).toNat ∧ (functField w).toNat ≤ 6 then
      some (fieldsR (functField w) (rdField w).toNat rs rt)
    else none
  else if op = 0x02 then some (fieldsLoadImm .addi rt rs imm)
  else if op = 0x03 then some (fieldsLoadImm .lw rt rs imm)
  else if op = 0x04 then some (fieldsStore rt rs imm)
  else if op = 0x05 then some (fieldsBranch .beq rs rt imm)
  else if op = 0x06 then some (fieldsBranch .bne rs rt imm)
  else if w = 0xFC000000 then some (fieldsN .halt)
  else none

end Sys2Proof.Machine
end

