-- ==== Sys2Proof/Machine/Alu.lean ====
section
/-! DEFINITION. The ALU of rule R130. -/

namespace Sys2Proof.Machine

/-- `alu(aluOp, a, b)`: ADD and SUB wrap, SLT compares as signed two's complement, nothing else comes out (R130, R138). -/
def alu (op : AluOp) (a b : Word) : Word :=
  match op with
  | .none => 0
  | .add => a + b
  | .sub => a - b
  | .and => a &&& b
  | .or => a ||| b
  | .xor => a ^^^ b
  | .slt => if a.toInt < b.toInt then 1 else 0

end Sys2Proof.Machine
end

