-- ==== Sys2Proof/Machine/Flags.lean ====
section
/-! DEFINITION. There are no flags or condition codes (R48). The one-bit outcome the Execute stage computes for branches
is the only condition there is, and it is stored nowhere. -/

namespace Sys2Proof.Machine

/-- `taken` of R161, on the two forwarded operands, all 32 bits compared; false for every opcode but BEQ and BNE. -/
def branchTaken (op : Opcode) (a b : Word) : Bool :=
  match op with
  | .beq => a == b
  | .bne => a != b
  | .nop | .alur | .addi | .lw | .sw | .halt => false

end Sys2Proof.Machine
end

