-- ==== Sys2Proof/WellFormed.lean ====
section
/-! DEFINITION. Which instruction terms and which parameters the hardware can be given. -/

namespace Sys2Proof

/-- A register number that a 5-bit index can name (R8, R20). -/
def validReg (r : Nat) : Bool := r ≤ 31

/-- The register operands of an instruction, sources before the destination, as `DecodedFields` lists them (R90). -/
def Instr.registers : Instr → List Nat
  | .nop => []
  | .add rd rs rt => [rs, rt, rd]
  | .sub rd rs rt => [rs, rt, rd]
  | .and rd rs rt => [rs, rt, rd]
  | .or rd rs rt => [rs, rt, rd]
  | .xor rd rs rt => [rs, rt, rd]
  | .slt rd rs rt => [rs, rt, rd]
  | .addi rt rs _ => [rs, rt]
  | .lw rt _ rs => [rs, rt]
  | .sw rt _ rs => [rs, rt]
  | .beq rs rt _ => [rs, rt]
  | .bne rs rt _ => [rs, rt]
  | .halt => []

/-- Every register operand is one of `r0` to `r31`. Immediates need no check: every 16-bit pattern is legal (R116). -/
def Instr.wellFormed (i : Instr) : Bool := i.registers.all validReg

/-- Every key of an image is the byte address of a word (R70, R316; U12 of 93_implementation_defined.md). -/
def imageKeysAligned (image : List (Word × Word)) : Bool := image.all fun e => isWordAddress e.1

/-- The parameters a loader may hand over: `RESET_PC` a multiple of 4 (R7, U5) and images keyed by word addresses. -/
def Params.wellFormed (p : Params) : Bool :=
  isWordAddress p.resetPc && imageKeysAligned p.imemImage && imageKeysAligned p.dmemImage

end Sys2Proof
end

