-- ==== Sys2Proof/Machine/Ops.lean ====
section
/-! DEFINITION. The named operations over registers and memory, raising an error, reset, and placing a word in Decode. -/

namespace Sys2Proof.Machine

/-! ### The RegisterFile -/

/-- Entry `r` of a bank. -/
def bankGet (b : Bank) (r : RegIdx) : Word := b[r.toNat]'r.isLt

/-- A bank with entry `r` replaced, entry 0 being hard-wired: a write to register 0 is discarded (R20, R23). -/
def bankSet (b : Bank) (r : RegIdx) (v : Word) : Bank := if r = 0#5 then b else b.set r.toNat v r.isLt

/-- A read port, by a 5-bit index: `committed[r]`, and 0 for register 0 whatever was written (R22). -/
def RegFile.readPort (f : RegFile) (r : RegIdx) : Word := if r = 0#5 then 0#32 else bankGet f.committed r

/-- The write port, by a 5-bit index: it sets `pending[r]` unless `r` = 0 (R23). Of two writes in a cycle the last wins
(R27). -/
def RegFile.writePort (f : RegFile) (r : RegIdx) (v : Word) : RegFile :=
  { f with pending := bankSet f.pending r v }

/-- `clock()`: `committed = pending` for all 32 entries (R24). -/
def RegFile.clock (f : RegFile) : RegFile := { f with committed := f.pending }

/-- `read(reg)` for any number: `OutOfRange` above 31 (R22, U13). -/
def RegFile.read (f : RegFile) (reg : Nat) : Except Fault Word :=
  if reg ≤ 31 then .ok (f.readPort (BitVec.ofNat 5 reg)) else .error (.outOfRange reg)

/-- `write(reg, value)` for any number: `OutOfRange` above 31 (R23). -/
def RegFile.write (f : RegFile) (reg : Nat) (v : Word) : Except Fault RegFile :=
  if reg ≤ 31 then .ok (f.writePort (BitVec.ofNat 5 reg) v) else .error (.outOfRange reg)

/-! ### Memory -/

/-- What an address that nothing has written reads as: 0 (R60). -/
def Memory.unlisted : Byte := 0

/-- The byte at an address. -/
def Memory.readByte : Memory → Nat → Byte
  | [], _ => Memory.unlisted
  | (a, b) :: m, k => if k = a then b else Memory.readByte m k

/-- A memory with one byte changed, in canonical form when the memory was. -/
def Memory.writeByte : Memory → Nat → Byte → Memory
  | [], k, v => if v = Memory.unlisted then [] else [(k, v)]
  | (a, b) :: m, k, v =>
    if k < a then (if v = Memory.unlisted then (a, b) :: m else (k, v) :: (a, b) :: m)
    else if k = a then (if v = Memory.unlisted then m else (k, v) :: m)
    else (a, b) :: Memory.writeByte m k v

/-- The address of byte `i` of the word at `a`; `i` is below 4, and nothing wraps when `a` is a word address. -/
def byteAddr (a : Word) (i : Nat) : Nat := (a + BitVec.ofNat 32 i).toNat

/-- The word at `a`, in the one byte order of `wordOfBytes`. -/
def Memory.readWord (m : Memory) (a : Word) : Word :=
  wordOfBytes (m.readByte (byteAddr a 0)) (m.readByte (byteAddr a 1)) (m.readByte (byteAddr a 2)) (m.readByte (byteAddr a 3))

/-- A memory with the word at `a` replaced. -/
def Memory.writeWord (m : Memory) (a : Word) (v : Word) : Memory :=
  (((m.writeByte (byteAddr a 0) (byteOfWord v 0)).writeByte (byteAddr a 1) (byteOfWord v 1)).writeByte
    (byteAddr a 2) (byteOfWord v 2)).writeByte (byteAddr a 3) (byteOfWord v 3)

/-- The canonical form: addresses strictly rising and within 32 bits, and no entry that an unlisted address would read
the same as. -/
abbrev Memory.wf (m : Memory) : Prop :=
  m.Pairwise (fun c d => c.1 < d.1) ∧ ∀ c ∈ m, c.1 < 2 ^ 32 ∧ c.2 ≠ Memory.unlisted

/-- The store an image describes: its words at their addresses and 0 elsewhere (R58). -/
def Memory.ofImage (image : List (Word × Word)) : Memory := image.foldr (fun e m => m.writeWord e.1 e.2) []

/-! ### Errors -/

/-- An error as a stage raises it: what, and the `instNo` of the failing instruction (R271 to R273). -/
structure StageError where
  error : Fault
  instNo : InstNo
  deriving DecidableEq, Repr

/-- RAISING AN ERROR, the only exceptional event there is (R270, R280): nothing but `fault` changes (R274, R282), and the
report carries the number of the failing cycle, the first being 1 (R275). There is no return from it but reset (R277,
R283). -/
def State.raise (s : State) (e : StageError) : State :=
  { s with fault := some ⟨e.error, e.instNo, s.cycles + 1⟩ }

/-- A halted or faulted machine, whose cycles change nothing (R181). -/
def State.frozen (s : State) : Bool := s.halted || s.fault.isSome

/-! ### Reset -/

/-- The RegisterFile after reset: `INIT_REGS` in both banks, entry 0 hard-wired to 0 (R54). -/
def RegFile.ofInit (init : Bank) : RegFile := { committed := init.set 0 0, pending := init.set 0 0 }

/-- Reset with given parameters: every component at the value of R311, whatever the machine did before (R310). -/
def State.resetWith (p : Params) : State where
  pc := p.resetPc
  regs := RegFile.ofInit p.initRegs
  imem := Memory.ofImage p.imemImage
  dmem := Memory.ofImage p.dmemImage
  ifid := IfId.bubble
  idex := IdEx.bubble
  exmem := ExMem.bubble
  memwb := MemWb.bubble
  nextInstNo := Config.instNoFirst
  fetchStopped := false
  halted := false
  fault := Option.none
  cycles := 0

/-! ### Placing a word where the next step decodes it -/

/-- The state in which `w` has been loaded at the PC and the Fetch unit has latched it (row 4 of R186), so that the next
cycle decodes it. It stands for the loader (R316) and one Fetch cycle (notes/assumptions/3.md). -/
def State.placeInDecode (s : State) (w : Word) : State :=
  { s with
    imem := s.imem.writeWord s.pc w
    ifid := ⟨s.nextInstNo, w, s.pc⟩
    pc := s.pc + Config.pcStep
    nextInstNo := s.nextInstNo + 1
    cycles := s.cycles + 1 }

end Sys2Proof.Machine
end

