-- ==== Sys2Proof/Machine/Operands.lean ====
section
/-! DEFINITION. Where operands come from: the Writeback bypass in Decode, the forwarding multiplexers in Execute, the
immediate multiplexer, the load-use test and the branch-target adder (51_hazard_forwarding.md). -/

namespace Sys2Proof.Machine

/-- `produces` of R232 for a latch with this opcode and destination. -/
def produces (op : Opcode) (destReg : RegIdx) : Bool := op.writesReg && destReg != 0#5

/-- `wbWrite`: the register write of this cycle, driven by the instruction in Writeback (R210). -/
def wbWrite (s : State) : Option (RegIdx × Word) :=
  if produces s.memwb.opcode s.memwb.destReg then some (s.memwb.destReg, s.memwb.result) else none

/-- The bypass multiplexer of one Decode operand: register `r`, needed or not (R192, R246). -/
def bypass (s : State) (r : RegIdx) (uses : Bool) : Word :=
  if uses && r != 0#5 then
    match wbWrite s with
    | some (d, v) => if d = r then v else s.regs.readPort r
    | none => s.regs.readPort r
  else s.regs.readPort r

/-- The forwarding multiplexer `fwd(r, v, uses)` of the instruction in Execute (R240): nearest producer first (R241), a
load in EX/MEM excluded from row 1 (R242). -/
def forward (s : State) (r : RegIdx) (v : Word) (uses : Bool) : Word :=
  if uses && r != 0#5 && produces s.exmem.opcode s.exmem.destReg && s.exmem.opcode != .lw && s.exmem.destReg == r then
    s.exmem.result
  else if uses && r != 0#5 && produces s.memwb.opcode s.memwb.destReg && s.memwb.destReg == r then
    s.memwb.result
  else v

/-- `a` of R197. -/
def operandA (s : State) : Word := forward s s.idex.src1Reg s.idex.operand1 s.idex.opcode.uses1

/-- `b` of R197. -/
def operandB (s : State) : Word := forward s s.idex.src2Reg s.idex.operand2 s.idex.opcode.uses2

/-- `y` of R199: the ALU's second input. -/
def aluInputB (s : State) : Word := if s.idex.opcode.usesImm then s.idex.immediate else operandB s

/-- The opcode needs register `r` as a source, given its two source fields (R93, R233). -/
def Opcode.needs (op : Opcode) (src1 src2 r : RegIdx) : Bool :=
  (op.uses1 && src1 == r) || (op.uses2 && src2 == r)

/-- The load-use test for a decoded record, the instruction in Execute being the load (R250). The clause on `flush` is in
`stallSignal`. -/
def loadUse (s : State) (f : Decoded) : Bool :=
  s.idex.opcode == .lw && s.idex.destReg != 0#5 && f.opcode.needs f.src1Reg f.src2Reg s.idex.destReg

/-- `(pc + 4 + (immediate << 2)) mod 2^32` (R162). -/
def branchTarget (pc immediate : Word) : Word := pc + 4 + (immediate <<< 2)

end Sys2Proof.Machine
end

