-- ==== Sys2Proof/Machine/Datapath.lean ====
section
/-! DEFINITION. The clock cycle of 50_pipeline.md: each stage's outputs as functions of the current state and of the
decoder's answer for the word in Decode, the choice of the error to report, and the clock edge. -/

namespace Sys2Proof.Machine

/-! ### Writeback (R208 to R212) -/

/-- `halted'` (R211). -/
def haltedNext (s : State) : Bool := s.halted || s.memwb.opcode == .halt

/-- The RegisterFile after the write of this cycle and `clock()` (R210, R214). -/
def regsNext (s : State) : RegFile :=
  match wbWrite s with
  | some (r, v) => (s.regs.writePort r v).clock
  | none => s.regs.clock

/-! ### Memory (R204 to R206) -/

/-- `errM`: LW and SW need a word address (R205, R63). -/
def memError (s : State) : Option StageError :=
  if (s.exmem.opcode.isLoad || s.exmem.opcode.isStore) && !isWordAddress s.exmem.result then
    some ⟨.misalignedAccess s.exmem.result, s.exmem.instNo⟩
  else none

/-- `memResult`, the result multiplexer in front of MEM/WB (R204, R205). -/
def memResult (s : State) : Word :=
  if s.exmem.opcode.isLoad then s.dmem.readWord s.exmem.result else s.exmem.result

/-- `MEMWB'` (R206). -/
def memwbNext (s : State) : MemWb := ⟨s.exmem.instNo, s.exmem.opcode, s.exmem.destReg, memResult s⟩

/-- `dmemWrite` (R205). -/
def dmemWrite (s : State) : Option (Word × Word) :=
  if s.exmem.opcode.isStore then some (s.exmem.result, s.exmem.storeValue) else none

/-- The data memory after the clock edge (R62, R214). -/
def dmemNext (s : State) : Memory :=
  match dmemWrite s with
  | some (a, v) => s.dmem.writeWord a v
  | none => s.dmem

/-! ### Execute (R196 to R203) -/

/-- `flush` = `taken` (R161, R201). -/
def flushSignal (s : State) : Bool := branchTaken s.idex.opcode (operandA s) (operandB s)

/-- `target` (R162, R201). -/
def flushTarget (s : State) : Word := branchTarget s.idex.pc s.idex.immediate

/-- `EXMEM'` (R199, R200, R202). -/
def exmemNext (s : State) : ExMem :=
  ⟨s.idex.instNo, s.idex.opcode, s.idex.destReg, alu s.idex.aluOp (operandA s) (aluInputB s), operandB s⟩

/-! ### Decode (R190 to R195). `v` is what the decoder answers for `IFID.instruction`. -/

/-- `f`, the decoder's answer as the Decode stage checks it (R191). -/
def decodeResult (v : Option RawFields) (s : State) : Except Fault Decoded := checkFields s.ifid.instruction v

/-- `errD`; a squashed word is not looked at (R191, R256). -/
def decodeError (v : Option RawFields) (s : State) : Option StageError :=
  if flushSignal s then none
  else
    match decodeResult v s with
    | .error e => some ⟨e, s.ifid.instNo⟩
    | .ok _ => none

/-- `stall` (R250). -/
def stallSignal (v : Option RawFields) (s : State) : Bool :=
  !flushSignal s &&
    match decodeResult v s with
    | .error _ => false
    | .ok f => loadUse s f

/-- `haltDec` (R172, R195). -/
def haltDec (v : Option RawFields) (s : State) : Bool :=
  !flushSignal s &&
    match decodeResult v s with
    | .error _ => false
    | .ok f => f.opcode == .halt

/-- The record of row 3 of R194: the decoded fields with the two operands read in this cycle (R192). -/
def issued (f : Decoded) (s : State) : IdEx where
  instNo := s.ifid.instNo
  pc := s.ifid.pc
  opcode := f.opcode
  aluOp := f.aluOp
  src1Reg := f.src1Reg
  src2Reg := f.src2Reg
  destReg := f.destReg
  operand1 := bypass s f.src1Reg f.opcode.uses1
  operand2 := bypass s f.src2Reg f.opcode.uses2
  immediate := f.immediate

/-- `IDEX'`, the rows of R194 in their order. A word that does not decode commits nothing (R213), so its row is never
latched. -/
def idexNext (v : Option RawFields) (s : State) : IdEx :=
  if flushSignal s then IdEx.bubble
  else if stallSignal v s then IdEx.bubble
  else
    match decodeResult v s with
    | .error _ => IdEx.bubble
    | .ok f => issued f s

/-! ### Fetch (R184 to R189) -/

/-- The four rows of R186, in priority order. -/
inductive FetchRow where
  | flush | stall | stop | normal
  deriving DecidableEq, Repr

/-- The row of R186 that applies. -/
def fetchRow (v : Option RawFields) (s : State) : FetchRow :=
  if flushSignal s then .flush
  else if stallSignal v s then .stall
  else if s.fetchStopped || haltDec v s then .stop
  else .normal

/-- `errF`: the PC is checked only in a cycle that would latch the word (R64, R185). -/
def fetchError (v : Option RawFields) (s : State) : Option StageError :=
  match fetchRow v s with
  | .normal => if isWordAddress s.pc then none else some ⟨.misalignedAccess s.pc, s.nextInstNo⟩
  | .flush | .stall | .stop => none

/-- `IFID'` (R186). -/
def ifidNext (v : Option RawFields) (s : State) : IfId :=
  match fetchRow v s with
  | .flush => IfId.bubble
  | .stall => s.ifid
  | .stop => IfId.bubble
  | .normal => ⟨s.nextInstNo, s.imem.readWord s.pc, s.pc⟩

/-- `PC'` (R186). -/
def pcNext (v : Option RawFields) (s : State) : Word :=
  match fetchRow v s with
  | .flush => flushTarget s
  | .stall => s.pc
  | .stop => s.pc
  | .normal => s.pc + Config.pcStep

/-- `nextInstNo'` (R186). -/
def instNoNext (v : Option RawFields) (s : State) : InstNo :=
  match fetchRow v s with
  | .flush | .stall | .stop => s.nextInstNo
  | .normal => s.nextInstNo + 1

/-- `fetchStopped'` (R186). -/
def fetchStoppedNext (v : Option RawFields) (s : State) : Bool :=
  match fetchRow v s with
  | .flush | .stall => s.fetchStopped
  | .stop => true
  | .normal => false

/-! ### The cycle (R213 to R215) -/

/-- The error a cycle reports: Memory's before Decode's before Fetch's (R276). -/
def cycleError (v : Option RawFields) (s : State) : Option StageError :=
  match memError s with
  | some e => some e
  | none =>
    match decodeError v s with
    | some e => some e
    | none => fetchError v s

/-- The machine will perform a cycle and no stage raises an error in it, the decoder's answer being `v`. -/
def State.commits (v : Option RawFields) (s : State) : Bool := !s.frozen && (cycleError v s).isNone

/-- The clock edge (R214). -/
def State.commit (v : Option RawFields) (s : State) : State where
  pc := pcNext v s
  regs := regsNext s
  imem := s.imem
  dmem := dmemNext s
  ifid := ifidNext v s
  idex := idexNext v s
  exmem := exmemNext s
  memwb := memwbNext s
  nextInstNo := instNoNext v s
  fetchStopped := fetchStoppedNext v s
  halted := haltedNext s
  fault := s.fault
  cycles := s.cycles + 1

/-- One clock cycle (R180, R181, R213, R215), `v` being the decoder's answer for the word in Decode. -/
def clockCycle (v : Option RawFields) (s : State) : State :=
  if s.frozen then s
  else
    match cycleError v s with
    | some e => s.raise e
    | none => s.commit v

/-- The cycle of a machine with any decoder for the parameter `DECODE` (R7, R191). `step` is this with `refdec`. -/
def cycleWith (dec : Decoder) (s : State) : State := clockCycle (dec s.ifid.instruction) s

/-- Any number of those cycles. -/
def cyclesWith (dec : Decoder) : Nat → State → State
  | 0, s => s
  | n + 1, s => cyclesWith dec n (cycleWith dec s)

/-- The clock cycle in which the Decode stage holds an instruction with these decoded fields. -/
def issue (f : RawFields) (s : State) : Host.Outcome State Fault Refusal := .next (clockCycle (some f) s)

end Sys2Proof.Machine
end

