-- ==== Sys2Proof/Machine/Arith.lean ====
section
/-! DEFINITION. The ALU instructions of 40_alu.md. The meaning of an instruction is the clock cycle in which Decode holds
it: it enters ID/EX as its decoded record, which Execute, Memory and Writeback act on in the next three cycles (R139). -/

namespace Sys2Proof.Machine

/-- ADD: `ALUR`, `aluOp` ADD (R131, R102). -/
def execAdd (rd rs rt : Nat) (s : State) : Host.Outcome State Fault Refusal := issue (fieldsR AluOp.add.code rd rs rt) s

/-- SUB: `ALUR`, `aluOp` SUB (R132, R103). -/
def execSub (rd rs rt : Nat) (s : State) : Host.Outcome State Fault Refusal := issue (fieldsR AluOp.sub.code rd rs rt) s

/-- AND: `ALUR`, `aluOp` AND (R133, R104). -/
def execAnd (rd rs rt : Nat) (s : State) : Host.Outcome State Fault Refusal := issue (fieldsR AluOp.and.code rd rs rt) s

/-- OR: `ALUR`, `aluOp` OR (R134, R105). -/
def execOr (rd rs rt : Nat) (s : State) : Host.Outcome State Fault Refusal := issue (fieldsR AluOp.or.code rd rs rt) s

/-- XOR: `ALUR`, `aluOp` XOR (R135, R106). -/
def execXor (rd rs rt : Nat) (s : State) : Host.Outcome State Fault Refusal := issue (fieldsR AluOp.xor.code rd rs rt) s

/-- SLT: `ALUR`, `aluOp` SLT (R136, R107). -/
def execSlt (rd rs rt : Nat) (s : State) : Host.Outcome State Fault Refusal := issue (fieldsR AluOp.slt.code rd rs rt) s

/-- ADDI: destination `rt`, source `rs`, the immediate sign-extended (R137, R108). -/
def execAddi (rt rs : Nat) (imm : BitVec 16) (s : State) : Host.Outcome State Fault Refusal :=
  issue (fieldsLoadImm .addi rt rs imm) s

end Sys2Proof.Machine
end

