-- ==== Sys2Proof/Machine/Branch.lean ====
section
/-! DEFINITION. The two branches of 42_branch.md, resolved in Execute, the cycle after their Decode. -/

namespace Sys2Proof.Machine

/-- BEQ: taken when the operands are equal (R163). -/
def execBeq (rs rt : Nat) (off : BitVec 16) (s : State) : Host.Outcome State Fault Refusal :=
  issue (fieldsBranch .beq rs rt off) s

/-- BNE: taken when the operands differ (R164). -/
def execBne (rs rt : Nat) (off : BitVec 16) (s : State) : Host.Outcome State Fault Refusal :=
  issue (fieldsBranch .bne rs rt off) s

end Sys2Proof.Machine
end

