-- ==== Sys2Proof/Machine/LoadStore.lean ====
section
/-! DEFINITION. The load and store instructions of 41_load_store.md. -/

namespace Sys2Proof.Machine

/-- LW: Execute adds base and displacement, Memory checks the address and reads, Writeback writes `rt` (R150, R152). -/
def execLw (rt : Nat) (imm : BitVec 16) (rs : Nat) (s : State) : Host.Outcome State Fault Refusal :=
  issue (fieldsLoadImm .lw rt rs imm) s

/-- SW: Execute adds base and displacement and takes the forwarded `rt` as store data, Memory checks and writes (R151,
R152). -/
def execSw (rt : Nat) (imm : BitVec 16) (rs : Nat) (s : State) : Host.Outcome State Fault Refusal :=
  issue (fieldsStore rt rs imm) s

end Sys2Proof.Machine
end

