-- ==== Sys2Proof/Machine/System.lean ====
section
/-! DEFINITION. NOP and HALT of 43_system.md, and the cycle of a word that is no instruction. -/

namespace Sys2Proof.Machine

/-- NOP: the all-zero record, which reads nothing, computes 0 and writes nothing (R170). -/
def execNop (s : State) : Host.Outcome State Fault Refusal := issue (fieldsN .nop) s

/-- HALT: its Decode cycle stops the fetch (R172) and its Writeback cycle sets `halted` (R173). -/
def execHalt (s : State) : Host.Outcome State Fault Refusal := issue (fieldsN .halt) s

/-- The cycle in which the word in Decode has no mapping: `UnknownOpcode` unless it is being squashed (R115, R256, R273). -/
def execUnknown (s : State) : Host.Outcome State Fault Refusal := .next (clockCycle none s)

end Sys2Proof.Machine
end

