-- ==== Sys2Proof/Machine/Step.lean ====
section
/-! DEFINITION. One step is one clock cycle (R180), and where the host's words are placed for it. -/

namespace Sys2Proof.Machine

/-- One clock cycle: the meaning of the instruction in Decode, which is a bubble's NOP when IF/ID is empty (R191). -/
def step (s : State) : Host.Outcome State Fault Refusal :=
  match decodeWord s.ifid.instruction with
  | .ok i => exec i s
  | .error _ => execUnknown s

/-- `s` with the word placed so that the next step decodes it (notes/assumptions/3.md). -/
def State.withFetchWord (s : State) (nbits w : Nat) : State := s.placeInDecode (BitVec.ofNat 32 (w % 2 ^ nbits))

end Sys2Proof.Machine
end

