-- ==== Sys2Proof/Machine/Observe.lean ====
section
/-! DEFINITION. What the host sees of the machine and how it drives it (R296 to R300, R81, R253). Reading changes nothing:
all of these are functions of a state, and of the decoder where they depend on the parameter `DECODE`. -/

namespace Sys2Proof.Machine

/-- The snapshot of R298: the four current latches, the PC and `committed[0..31]`, with what R81 and R298 add. -/
structure Snapshot where
  ifid : IfId
  idex : IdEx
  exmem : ExMem
  memwb : MemWb
  pc : Word
  committed : Bank
  fetchStopped : Bool
  halted : Bool
  fault : Option ErrorReport
  nextInstNo : InstNo
  dmem : Memory
  deriving DecidableEq, Repr

/-- The observation hook (R298). -/
def State.snapshot (s : State) : Snapshot :=
  ⟨s.ifid, s.idex, s.exmem, s.memwb, s.pc, s.regs.committed, s.fetchStopped, s.halted, s.fault, s.nextInstNo, s.dmem⟩

/-- `isHalted()` (R299). -/
def State.isHalted (s : State) : Bool := s.halted

/-- What `cycle()` returns to the host, read off the state it leaves: the error of this cycle, or the stored one again on
a faulted machine, or none for success (R297, R277). -/
def State.cycleReturn (after : State) : Option ErrorReport := after.fault

/-- The one kind of hazard a stall event names (R253). -/
inductive HazardKind where
  | loadUse
  deriving DecidableEq, Repr

/-- The event of a stall cycle (R253, D29). -/
structure StallEvent where
  cycleNumber : Nat
  instNo : InstNo
  kind : HazardKind
  deriving DecidableEq, Repr

/-- The event the observer receives in this cycle of a machine with this decoder: one in each cycle that asserts the stall
and commits. In a cycle that asserts it and raises an older instruction's error, the spec leaves open whether there is an
event; here there is none (DESIGN CHOICE, notes/assumptions/16.md, safe). It changes no state. -/
def stallEvent (dec : Decoder) (s : State) : Option StallEvent :=
  if s.commits (dec s.ifid.instruction) && stallSignal (dec s.ifid.instruction) s then
    some ⟨s.cycles + 1, s.ifid.instNo, .loadUse⟩
  else none

/-- The driver loop with a cycle budget: it stops at a halt, at an error, or when the budget is spent (R300, R176). -/
def drive (dec : Decoder) : Nat → State → State
  | 0, s => s
  | budget + 1, s => if s.frozen then s else drive dec budget (cycleWith dec s)

end Sys2Proof.Machine
end

