-- ==== Sys2Proof/Machine/Sequential.lean ====
section
/-! DEFINITION. The sequential reference machine of rule R217: one whole instruction at a time over `pc`, the registers and
data memory. Its decoder is the parameter `DECODE` (R7), as the pipeline's is in `cycleWith`. `seqExec` gives the effect of
each instruction of DPS-REF as its rule states it; `seqEffect` gives the effect of a decoded record, whatever decoder
answered it. The pipeline of Datapath.lean calls neither; that they agree, with each other and with the pipeline (R218), is
stated in Obligations.lean. -/

namespace Sys2Proof.Machine

/-- The state of the reference machine (R217). -/
structure ArchState where
  pc : Word
  regs : Bank
  dmem : Memory
  deriving DecidableEq, Repr

/-- What one step of the reference machine comes to (R217). -/
inductive SeqOutcome where
  | next (a : ArchState)
  | stopped
  | error (e : Fault)
  deriving DecidableEq, Repr

/-! ### The primitives of R12 -/

/-- Entry `r` of a bank as an instruction sees it: 0 for register 0 (R12, R20). -/
def archReg (b : Bank) (r : RegIdx) : Word := if r = 0#5 then 0#32 else bankGet b r

/-- `x[r]`, by a 5-bit index (R12). -/
def ArchState.read (a : ArchState) (r : RegIdx) : Word := archReg a.regs r

/-- `x[r]` (R12). -/
def ArchState.x (a : ArchState) (r : Nat) : Word := a.read (BitVec.ofNat 5 r)

/-- `pc <- pc + 4`. -/
def ArchState.advance (a : ArchState) : ArchState := { a with pc := a.pc + 4 }

/-- `x[r] <- v; pc <- pc + 4`, by a 5-bit index; a write to `x[0]` is discarded (R12). -/
def ArchState.write (a : ArchState) (r : RegIdx) (v : Word) : ArchState :=
  { a with regs := bankSet a.regs r v, pc := a.pc + 4 }

/-- `x[r] <- v; pc <- pc + 4` (R12). -/
def ArchState.writeNext (a : ArchState) (r : Nat) (v : Word) : ArchState := a.write (BitVec.ofNat 5 r) v

/-- `ea` of R152. -/
def ArchState.ea (a : ArchState) (rs : Nat) (imm : BitVec 16) : Word := a.x rs + sext32 imm

/-- What LW does with its effective address (R150). -/
def archLoad (dest : RegIdx) (ea : Word) (a : ArchState) : SeqOutcome :=
  if isWordAddress ea then .next (a.write dest (a.dmem.readWord ea)) else .error (.misalignedAccess ea)

/-- What SW does with its effective address and its data (R151). -/
def archStore (ea data : Word) (a : ArchState) : SeqOutcome :=
  if isWordAddress ea then .next { a with dmem := a.dmem.writeWord ea data, pc := a.pc + 4 }
  else .error (.misalignedAccess ea)

/-- The next `pc` of a branch, `offset` being its sign-extended immediate (R163, R164). -/
def archBranch (taken : Bool) (offset : Word) (a : ArchState) : SeqOutcome :=
  .next { a with pc := if taken then a.pc + 4 + (offset <<< 2) else a.pc + 4 }

/-! ### The effects -/

/-- The architectural effect of an instruction of DPS-REF (R131 to R137, R150, R151, R163, R164, R170, R171). -/
def seqExec (i : Instr) (a : ArchState) : SeqOutcome :=
  match i with
  | .nop => .next a.advance
  | .add rd rs rt => .next (a.writeNext rd (a.x rs + a.x rt))
  | .sub rd rs rt => .next (a.writeNext rd (a.x rs - a.x rt))
  | .and rd rs rt => .next (a.writeNext rd (a.x rs &&& a.x rt))
  | .or rd rs rt => .next (a.writeNext rd (a.x rs ||| a.x rt))
  | .xor rd rs rt => .next (a.writeNext rd (a.x rs ^^^ a.x rt))
  | .slt rd rs rt => .next (a.writeNext rd (if (a.x rs).toInt < (a.x rt).toInt then 1 else 0))
  | .addi rt rs imm => .next (a.writeNext rt (a.x rs + sext32 imm))
  | .lw rt imm rs => archLoad (BitVec.ofNat 5 rt) (a.ea rs imm) a
  | .sw rt imm rs => archStore (a.ea rs imm) (a.x rt) a
  | .beq rs rt off => archBranch (a.x rs == a.x rt) (sext32 off) a
  | .bne rs rt off => archBranch (a.x rs != a.x rt) (sext32 off) a
  | .halt => .stopped

/-- The architectural effect of a decoded record: that of its opcode's rule, with the ALU operation the record names. The
rules name an operation only for the records of DPS-REF (DESIGN CHOICE for any other pairing of opcode and `aluOp`,
notes/assumptions/15.md, unsafe for a decoder that makes one). -/
def seqEffect (d : Decoded) (a : ArchState) : SeqOutcome :=
  match d.opcode with
  | .nop => .next a.advance
  | .alur => .next (a.write d.destReg (alu d.aluOp (a.read d.src1Reg) (a.read d.src2Reg)))
  | .addi => .next (a.write d.destReg (alu d.aluOp (a.read d.src1Reg) d.immediate))
  | .lw => archLoad d.destReg (alu d.aluOp (a.read d.src1Reg) d.immediate) a
  | .sw => archStore (alu d.aluOp (a.read d.src1Reg) d.immediate) (a.read d.src2Reg) a
  | .beq => archBranch (a.read d.src1Reg == a.read d.src2Reg) d.immediate a
  | .bne => archBranch (a.read d.src1Reg != a.read d.src2Reg) d.immediate a
  | .halt => .stopped

/-- `f = DECODE(IMEM[pc])`, with the check of R115 for a decoder that breaks its contract (R217; DESIGN CHOICE,
notes/assumptions/15.md, safe). -/
def seqDecode (dec : Decoder) (imem : Memory) (a : ArchState) : Except Fault Decoded :=
  checkFields (imem.readWord a.pc) (dec (imem.readWord a.pc))

/-- One step of the reference machine with a decoder, over an instruction memory (R217). -/
def seqStep (dec : Decoder) (imem : Memory) (a : ArchState) : SeqOutcome :=
  match seqDecode dec imem a with
  | .ok d => seqEffect d a
  | .error e => .error e

/-! ### Whole runs, with the counts of R218 and R327 -/

/-- The register a load loads, unless it is `r0` (R327). -/
def Decoded.loadTarget (d : Decoded) : Option RegIdx :=
  if d.opcode = .lw ∧ d.destReg ≠ 0#5 then some d.destReg else none

/-- The instruction, executed after one that loaded `loaded`, costs a load-use stall (R327). -/
def Decoded.stallsAfter (d : Decoded) (loaded : Option RegIdx) : Bool :=
  match loaded with
  | some r => d.opcode.needs d.src1Reg d.src2Reg r
  | none => false

/-- The instruction is a branch and is taken in this state (R163, R164). -/
def Decoded.takesBranch (d : Decoded) (a : ArchState) : Bool :=
  branchTaken d.opcode (a.read d.src1Reg) (a.read d.src2Reg)

/-- A run of the reference machine that reached a HALT: the state there, the instructions executed with the HALT
included, the load-use stalls and the taken branches on the way (R327). -/
structure SeqRun where
  final : ArchState
  executed : Nat
  stalls : Nat
  taken : Nat
  deriving DecidableEq, Repr

/-- The run to a HALT of at most `fuel` instructions, or nothing where it meets an error or no HALT. `loaded` is what the
instruction before loaded. -/
def seqRun (dec : Decoder) (imem : Memory) : Nat → Option RegIdx → ArchState → Option SeqRun
  | 0, _, _ => none
  | fuel + 1, loaded, a =>
    match seqDecode dec imem a with
    | .error _ => none
    | .ok d =>
      match seqEffect d a with
      | .error _ => none
      | .stopped => some ⟨a, 1, (d.stallsAfter loaded).toNat, 0⟩
      | .next a' =>
        match seqRun dec imem fuel d.loadTarget a' with
        | none => none
        | some r =>
          some ⟨r.final, r.executed + 1, r.stalls + (d.stallsAfter loaded).toNat, r.taken + (d.takesBranch a).toNat⟩

/-- The error that stops the reference machine within `fuel` instructions, with the state in which the failing one was to
be executed (R217, R278). -/
def seqError (dec : Decoder) (imem : Memory) : Nat → ArchState → Option (Fault × ArchState)
  | 0, _ => none
  | fuel + 1, a =>
    match seqStep dec imem a with
    | .error e => some (e, a)
    | .stopped => none
    | .next a' => seqError dec imem fuel a'

end Sys2Proof.Machine
end

