-- ==== Sys2Proof/Safety.lean ====
section
/-! DEFINITION. The terms the claims use: the invariants of rule R216, what a cycle does with the word in Decode, and the
architectural state that the instructions in flight will leave (the view that ties the pipeline to R217). -/

namespace Sys2Proof.Machine

/-! ### What a cycle does with the word in Decode -/

/-- IF/ID holds a fetched word and this cycle neither squashes it nor holds it: it goes to ID/EX. -/
def State.issues (v : Option RawFields) (s : State) : Bool :=
  s.ifid != IfId.bubble && !flushSignal s && !stallSignal v s

/-- The Memory stage and the Fetch unit raise nothing: the data address is a word address where one is used, and so is
the PC. -/
def State.addressesGood (s : State) : Bool := (memError s).isNone && isWordAddress s.pc

/-- The word in Decode is a fetched one that goes to ID/EX in this cycle when the registers it needs are `sources`: the
machine runs, Execute takes no branch, the load in Execute (if it is one) loads none of them, and no address is bad.
`nextInstNo` has not wrapped round to the bubble's 0 (U11). -/
def State.accepts (s : State) (sources : List Nat) : Bool :=
  !s.frozen && s.ifid != IfId.bubble && s.nextInstNo != 0 && !flushSignal s && s.addressesGood &&
    !(s.idex.opcode == .lw && s.idex.destReg != 0#5 && sources.any fun r => BitVec.ofNat 5 r == s.idex.destReg)

/-! ### The architectural view -/

/-- The registers once the instruction in Writeback is done. -/
def State.regsAfterWb (s : State) : Bank :=
  if produces s.memwb.opcode s.memwb.destReg then bankSet s.regs.committed s.memwb.destReg s.memwb.result
  else s.regs.committed

/-- The registers once the instruction in Memory is done too. -/
def State.regsAfterMem (s : State) : Bank :=
  if produces s.exmem.opcode s.exmem.destReg then
    bankSet s.regsAfterWb s.exmem.destReg
      (if s.exmem.opcode = .lw then s.dmem.readWord s.exmem.result else s.exmem.result)
  else s.regsAfterWb

/-- Data memory once the instruction in Memory is done. -/
def State.dmemAfterMem (s : State) : Memory :=
  if s.exmem.opcode = .sw then s.dmem.writeWord s.exmem.result s.exmem.storeValue else s.dmem

/-- The first source of the instruction in Execute, read as sequential execution would. -/
def State.seqA (s : State) : Word := archReg s.regsAfterMem s.idex.src1Reg

/-- Its second source. -/
def State.seqB (s : State) : Word := archReg s.regsAfterMem s.idex.src2Reg

/-- What Execute computes for it. -/
def State.seqResult (s : State) : Word :=
  alu s.idex.aluOp s.seqA (if s.idex.opcode.usesImm then s.idex.immediate else s.seqB)

/-- The registers once the instruction in Execute is done too. -/
def State.regsAfterEx (s : State) : Bank :=
  if produces s.idex.opcode s.idex.destReg then
    bankSet s.regsAfterMem s.idex.destReg
      (if s.idex.opcode = .lw then s.dmemAfterMem.readWord s.seqResult else s.seqResult)
  else s.regsAfterMem

/-- Data memory once the instruction in Execute is done too. -/
def State.dmemAfterEx (s : State) : Memory :=
  if s.idex.opcode = .sw then s.dmemAfterMem.writeWord s.seqResult s.seqB else s.dmemAfterMem

/-- The address of the instruction that executes after those in Execute, Memory and Writeback: a taken branch's target,
else the word in Decode, else the word Fetch is at. -/
def State.nextPc (s : State) : Word :=
  if branchTaken s.idex.opcode s.seqA s.seqB then branchTarget s.idex.pc s.idex.immediate
  else if s.ifid = IfId.bubble then s.pc
  else s.ifid.pc

/-- The state of the sequential machine of R217 after every instruction older than the word in Decode: those in
Writeback, Memory and Execute are completed in that order, one whole instruction at a time, with no forwarding. -/
def State.arch (s : State) : ArchState := ⟨s.nextPc, s.regsAfterEx, s.dmemAfterEx⟩

/-- `t` follows `s` by a cycle in which the instruction with record `d` went from Decode to ID/EX, and brings the
architectural state to `a`. Unless a younger instruction's error stops the machine, `committed` holds `a`'s registers when
the instruction has passed Writeback, three cycles on, and `DMEM` its memory when it has passed Memory, two cycles on
(R139, R326). -/
def State.Issued (s t : State) (d : Decoded) (a : ArchState) : Prop :=
  t.fault = none ∧ t.idex = issued d s ∧ t.arch = a ∧
  (∀ u, core.run 2 t = .next u → u.fault = none → u.dmem = a.dmem) ∧
  (∀ u, core.run 3 t = .next u → u.fault = none → u.regs.committed = a.regs)

/-! ### Invariants -/

/-- The PC and the addresses in flight are multiples of 4 (R30, R216 (a)). -/
abbrev State.PcAligned (s : State) : Prop :=
  isWordAddress s.pc = true ∧ isWordAddress s.ifid.pc = true ∧ isWordAddress s.idex.pc = true

/-- The banks agree and register 0 is 0 (R26, R216 (b)). -/
abbrev State.BanksAgree (s : State) : Prop :=
  s.regs.pending = s.regs.committed ∧ bankGet s.regs.committed 0 = 0

/-- A latch whose opcode writes no register names no destination (R216 (c)). -/
abbrev State.NoStrayDest (s : State) : Prop :=
  (s.idex.opcode.writesReg = false → s.idex.destReg = 0) ∧
  (s.exmem.opcode.writesReg = false → s.exmem.destReg = 0) ∧
  (s.memwb.opcode.writesReg = false → s.memwb.destReg = 0)

/-- The instruction in Execute does not need what a load in Memory loads (R252, R216 (d)). -/
abbrev State.LoadSeparated (s : State) : Prop :=
  s.exmem.opcode = .lw → s.exmem.destReg ≠ 0 →
    s.idex.opcode.needs s.idex.src1Reg s.idex.src2Reg s.exmem.destReg = false

/-- After a fetch stop IF/ID is empty and no branch is in Execute (R259, R216 (e)). -/
abbrev State.StopQuiet (s : State) : Prop :=
  s.fetchStopped = true → s.ifid = IfId.bubble ∧ s.idex.opcode.isBranch = false

/-- The HALT that stopped the fetch is in flight with only empty latches behind it, until `halted` (R172, R173). -/
abbrev State.HaltDrains (s : State) : Prop :=
  (s.fetchStopped = true ↔
    s.idex.opcode = .halt ∨ s.exmem.opcode = .halt ∨ s.memwb.opcode = .halt ∨ s.halted = true) ∧
  (s.exmem.opcode = .halt → s.idex = IdEx.bubble) ∧
  (s.memwb.opcode = .halt → s.idex = IdEx.bubble ∧ s.exmem = ExMem.bubble) ∧
  (s.halted = true → s.idex = IdEx.bubble ∧ s.exmem = ExMem.bubble ∧ s.memwb = MemWb.bubble)

/-- The operands latched for Execute are the committed registers: the bypass leaves no stale one (R246, R247). -/
abbrev State.OperandsFresh (s : State) : Prop :=
  (s.idex.opcode.uses1 = true → s.idex.operand1 = s.regs.readPort s.idex.src1Reg) ∧
  (s.idex.opcode.uses2 = true → s.idex.operand2 = s.regs.readPort s.idex.src2Reg)

/-- The Fetch unit is one word past the word in Decode (R186). -/
abbrev State.FetchFollows (s : State) : Prop := s.ifid = IfId.bubble ∨ s.pc = s.ifid.pc + 4

/-- The pipeline's invariant at a cycle boundary: rule R216 with what its proof and R218 need beside it. -/
abbrev State.PipelineInv (s : State) : Prop :=
  s.PcAligned ∧ s.BanksAgree ∧ s.NoStrayDest ∧ s.LoadSeparated ∧ s.StopQuiet ∧ s.HaltDrains ∧ s.OperandsFresh ∧
    s.FetchFollows

/-- Bubbles (`instNo` 0) aside, the instruction in a later stage is older, and the next one fetched is younger than all
(R41, R216 (f)). -/
abbrev State.InOrder (s : State) : Prop :=
  s.nextInstNo ≠ 0 ∧
  ([s.nextInstNo, s.ifid.instNo, s.idex.instNo, s.exmem.instNo, s.memwb.instNo].filter (· != 0)).Pairwise
    fun younger older => older < younger

/-- Both memories are in canonical form. -/
abbrev State.MemoriesWf (s : State) : Prop := s.imem.wf ∧ s.dmem.wf

/-! ### Sequence numbers -/

/-- The state with every `instNo` and the counter that hands them out set to 0 (R42). -/
def State.eraseInstNo (s : State) : State :=
  { s with
    ifid := { s.ifid with instNo := 0 }
    idex := { s.idex with instNo := 0 }
    exmem := { s.exmem with instNo := 0 }
    memwb := { s.memwb with instNo := 0 }
    nextInstNo := 0
    fault := s.fault.map fun e => { e with instNo := 0 } }

end Sys2Proof.Machine
end

