-- ==== Sys2Proof/Certificates/Slice0/Obligations.lean ====
section
/-! DEFINITION. The statements for the provers. Where one speaks of `refdec s.ifid.instruction`, that is the decoder's
answer for the word in Decode, which the signals of R182 are computed from. -/

open Sys2Proof Sys2Proof.Machine

/-! ### Encoding -/

/-- Every well-formed instruction's word, and its four bytes with anything after them, decode to it (R95 to R112, R117). -/
def Obligations.DecodeOfEncodeReturnsInstruction : Prop :=
  ∀ i : Instr, i.wellFormed = true →
    decodeWord (encode i) = .ok i ∧ ∀ rest, decodeBytes (encodeBytes i ++ rest) = .ok (i, rest)

/-- A word that decodes is the one word of the well-formed instruction it decodes to: no bit of a word is ignored. -/
def Obligations.EncodeOfDecodeReturnsWord : Prop :=
  ∀ (w : Word) (i : Instr), decodeWord w = .ok i → i.wellFormed = true ∧ encode i = w

/-- The words with no instruction are exactly those of R116. -/
def Obligations.UnknownWordsAreExactlyTheReserved : Prop :=
  ∀ w : Word, decodeWord w = .error (.unknownOpcode w) ↔
    (0x07 ≤ (opField w).toNat ∧ (opField w).toNat ≤ 0x3E) ∨
    (opField w = 0x00 ∧ w.extractLsb' 0 26 ≠ 0) ∨
    (opField w = 0x3F ∧ w.extractLsb' 0 26 ≠ 0) ∨
    (opField w = 0x01 ∧ (zeroField w ≠ 0 ∨ functField w = 0 ∨ 7 ≤ (functField w).toNat))

/-- The worked encodings of R114, both ways. -/
def Obligations.WorkedWordsEncodeAndDecode : Prop :=
  ∀ e ∈ [((0x04430801 : Word), Instr.add 1 2 3), (0x04252001, .add 4 1 5), (0x0C410000, .lw 1 0 2),
      (0x0821FFFF, .addi 1 1 (-1)), (0x10020100, .sw 2 0x100 0), (0x1820FFFD, .bne 1 0 (-3)), (0x14000001, .beq 0 0 1),
      (0xFC000000, .halt), (0x00000000, .nop)],
    decodeWord e.1 = .ok e.2 ∧ encode e.2 = e.1

/-- `REFDEC` meets the contract of R91 (a), (b) and (c), and its immediates are those of R99: `sext_32` of `w[15:0]` in
format I, with bit 15 copied into bits 31 to 16, and 0 in the other formats. -/
def Obligations.ReferenceDecoderMeetsContract : Prop :=
  DecodeContract refdec ∧
  ∀ w f, refdec w = some f →
    f.immediate = (if 2 ≤ (opField w).toNat ∧ (opField w).toNat ≤ 6 then sext32 (immField w) else 0) ∧
    ∀ imm : BitVec 16,
      sext32 imm = if imm[15] = false then imm.zeroExtend 32 else 0xFFFF0000 + imm.zeroExtend 32

/-! ### The step -/

/-- A step is the meaning of the instruction that the word in Decode decodes to, and nothing is done around it; a word
that is no instruction gets the cycle of `UnknownOpcode`. -/
def Obligations.StepRunsInstructionInDecode : Prop :=
  ∀ s : State,
    (∀ i, decodeWord s.ifid.instruction = .ok i → step s = exec i s) ∧
    (∀ e, decodeWord s.ifid.instruction = .error e → step s = execUnknown s)

/-- A word the Fetch unit latches in this step is the one the next step decodes: fetching at the PC in row 4 of R186, and
then running what was fetched. -/
def Obligations.FetchedWordRunsInNextStep : Prop :=
  ∀ s t : State, ∀ i : Instr, step s = .next t → s.frozen = false → t.fault = none →
    flushSignal s = false → stallSignal (refdec s.ifid.instruction) s = false → s.fetchStopped = false →
    haltDec (refdec s.ifid.instruction) s = false → decodeWord (s.imem.readWord s.pc) = .ok i → step t = exec i t

/-- With `REFDEC` for the parameter `DECODE`, the step is the cycle of R215, a run is that many of those cycles, and the
effect of an instruction as its rule states it is the effect of its record on the reference machine of R217: the meanings,
the opcode table and R100's rows agree on every word. -/
def Obligations.StepIsCycleWithReferenceDecoder : Prop :=
  (∀ s : State, step s = .next (cycleWith refdec s)) ∧
  (∀ (n : Nat) (s : State), core.run n s = .next (cyclesWith refdec n s)) ∧
  ∀ w : Word, match decodeWord w with
    | .ok i => ∃ d, checkFields w (refdec w) = .ok d ∧ ∀ a, seqEffect d a = seqExec i a
    | .error _ => refdec w = none

/-- R181: a halted or faulted machine's cycles change nothing, any number of them, whatever decoder it has. -/
def Obligations.FrozenMachineNeverChanges : Prop :=
  ∀ s : State, s.halted = true ∨ s.fault ≠ none →
    (∀ n, core.run n s = .next s) ∧ (∀ i, exec i s = .next s) ∧ (∀ dec, cycleWith dec s = s)

/-! ### Registers and memory -/

/-- R22 to R25: what the RegisterFile's ports read and write, for any number given as an index. -/
def Obligations.RegisterFileReadsOldWritesNew : Prop :=
  ∀ (f : RegFile) (reg : Nat) (v : Word),
    (reg ≤ 31 → f.read reg = .ok (if reg = 0 then 0 else bankGet f.committed (BitVec.ofNat 5 reg))) ∧
    (31 < reg → f.read reg = .error (.outOfRange reg) ∧ f.write reg v = .error (.outOfRange reg)) ∧
    (reg ≤ 31 → ∃ g, f.write reg v = .ok g ∧ (∀ q, g.read q = f.read q) ∧
      ∀ q, q ≤ 31 → g.clock.read q = if q = reg ∧ reg ≠ 0 then .ok v else f.clock.read q) ∧
    (∀ r, bankGet f.clock.committed r = bankGet f.pending r ∧ bankGet f.clock.pending r = bankGet f.pending r)

/-- R75 at distance 1: what a store in Memory writes is read by a load of its address one cycle later, and no load of
another address sees it. -/
def Obligations.StoreIsSeenByLaterLoads : Prop :=
  ∀ s t : State, s.dmem.wf → step s = .next t → s.frozen = false → t.fault = none → s.exmem.opcode = .sw →
    t.exmem.opcode = .lw →
    (t.exmem.result = s.exmem.result → (memwbNext t).result = s.exmem.storeValue) ∧
    (t.exmem.result ≠ s.exmem.result → isWordAddress t.exmem.result = true →
      (memwbNext t).result = s.dmem.readWord t.exmem.result)

/-- R49, R78: no step changes instruction memory. -/
def Obligations.InstructionMemoryNeverChanges : Prop :=
  ∀ s t : State, step s = .next t → t.imem = s.imem

/-! ### The stages -/

/-- R130: the ALU, with SLT's comparison as integers. -/
def Obligations.AluTable : Prop :=
  ∀ a b : Word,
    alu .none a b = 0 ∧ (alu .add a b).toNat = (a.toNat + b.toNat) % 2 ^ 32 ∧
    (alu .sub a b).toInt = Int.bmod (a.toInt - b.toInt) (2 ^ 32) ∧
    (∀ i, (alu .and a b).getLsbD i = (a.getLsbD i && b.getLsbD i)) ∧
    (∀ i, (alu .or a b).getLsbD i = (a.getLsbD i || b.getLsbD i)) ∧
    (∀ i, (alu .xor a b).getLsbD i = (a.getLsbD i != b.getLsbD i)) ∧
    (a.toInt < b.toInt → alu .slt a b = 1) ∧ (b.toInt ≤ a.toInt → alu .slt a b = 0)

/-- R240, R241: the forwarding multiplexer, row by row: a needed register other than 0 comes from the nearest producer. -/
def Obligations.ForwardTakesNearestProducer : Prop :=
  ∀ (s : State) (r : RegIdx) (v : Word),
    let fromMem := s.exmem.opcode.writesReg = true ∧ s.exmem.opcode ≠ .lw ∧ s.exmem.destReg = r ∧ r ≠ 0
    let fromWb := s.memwb.opcode.writesReg = true ∧ s.memwb.destReg = r ∧ r ≠ 0
    forward s r v false = v ∧
    (fromMem → forward s r v true = s.exmem.result) ∧
    (¬ fromMem → fromWb → forward s r v true = s.memwb.result) ∧
    (¬ fromMem → ¬ fromWb → forward s r v true = v) ∧
    operandA s = forward s s.idex.src1Reg s.idex.operand1 s.idex.opcode.uses1 ∧
    operandB s = forward s s.idex.src2Reg s.idex.operand2 s.idex.opcode.uses2

/-- R186: the four rows of the Fetch unit, in a cycle that commits. -/
def Obligations.FetchUnitRows : Prop :=
  ∀ s t : State, step s = .next t → s.frozen = false → t.fault = none →
    let flush := flushSignal s
    let stall := stallSignal (refdec s.ifid.instruction) s
    let stop := s.fetchStopped || haltDec (refdec s.ifid.instruction) s
    (flush = true → t.ifid = IfId.bubble ∧ t.pc = flushTarget s ∧ t.nextInstNo = s.nextInstNo ∧
      t.fetchStopped = s.fetchStopped) ∧
    (flush = false → stall = true → t.ifid = s.ifid ∧ t.pc = s.pc ∧ t.nextInstNo = s.nextInstNo ∧
      t.fetchStopped = s.fetchStopped) ∧
    (flush = false → stall = false → stop = true → t.ifid = IfId.bubble ∧ t.pc = s.pc ∧ t.nextInstNo = s.nextInstNo ∧
      t.fetchStopped = true) ∧
    (flush = false → stall = false → stop = false →
      t.ifid = ⟨s.nextInstNo, s.imem.readWord s.pc, s.pc⟩ ∧ t.pc.toNat = (s.pc.toNat + 4) % 2 ^ 32 ∧
      t.nextInstNo = s.nextInstNo + 1 ∧ t.fetchStopped = false)

/-- R192, R194, R246: what Decode latches, the bypass included, in a cycle that commits. -/
def Obligations.DecodeStageLatches : Prop :=
  ∀ s t : State, step s = .next t → s.frozen = false → t.fault = none →
    (flushSignal s = true ∨ stallSignal (refdec s.ifid.instruction) s = true ∨ s.ifid = IfId.bubble →
      t.idex = IdEx.bubble) ∧
    (flushSignal s = false → stallSignal (refdec s.ifid.instruction) s = false →
      ∃ f, checkFields s.ifid.instruction (refdec s.ifid.instruction) = .ok f ∧
        t.idex.instNo = s.ifid.instNo ∧ t.idex.pc = s.ifid.pc ∧ t.idex.opcode = f.opcode ∧ t.idex.aluOp = f.aluOp ∧
        t.idex.src1Reg = f.src1Reg ∧ t.idex.src2Reg = f.src2Reg ∧ t.idex.destReg = f.destReg ∧
        t.idex.immediate = f.immediate ∧
        t.idex.operand1 =
          (if f.src1Reg = 0 then 0
           else if f.opcode.uses1 = true ∧ s.memwb.opcode.writesReg = true ∧ s.memwb.destReg = f.src1Reg then
             s.memwb.result
           else bankGet s.regs.committed f.src1Reg) ∧
        t.idex.operand2 =
          (if f.src2Reg = 0 then 0
           else if f.opcode.uses2 = true ∧ s.memwb.opcode.writesReg = true ∧ s.memwb.destReg = f.src2Reg then
             s.memwb.result
           else bankGet s.regs.committed f.src2Reg))

/-- R161, R162, R197 to R202: what Execute latches for each class of opcode, in a cycle that commits, and the branch
outcome and target it drives. -/
def Obligations.ExecuteStageLatches : Prop :=
  ∀ s t : State, step s = .next t → s.frozen = false → t.fault = none →
    t.exmem.instNo = s.idex.instNo ∧ t.exmem.opcode = s.idex.opcode ∧ t.exmem.destReg = s.idex.destReg ∧
    t.exmem.storeValue = operandB s ∧
    (s.idex.opcode.usesImm = true → t.exmem.result = alu s.idex.aluOp (operandA s) s.idex.immediate) ∧
    (s.idex.opcode.usesImm = false → t.exmem.result = alu s.idex.aluOp (operandA s) (operandB s)) ∧
    (flushSignal s = true ↔
      (s.idex.opcode = .beq ∧ operandA s = operandB s) ∨ (s.idex.opcode = .bne ∧ operandA s ≠ operandB s)) ∧
    (flushTarget s).toNat = (s.idex.pc.toNat + 4 + s.idex.immediate.toNat * 4) % 2 ^ 32 ∧
    (s.idex = IdEx.bubble → t.exmem = ExMem.bubble)

/-- R205, R206: the Memory stage in a cycle that commits: a load's word, a store's write and no other byte's. -/
def Obligations.MemoryStageReadsAndWrites : Prop :=
  ∀ s t : State, s.dmem.wf → step s = .next t → s.frozen = false → t.fault = none →
    t.memwb.instNo = s.exmem.instNo ∧ t.memwb.opcode = s.exmem.opcode ∧ t.memwb.destReg = s.exmem.destReg ∧
    (s.exmem.opcode = .lw → t.memwb.result = s.dmem.readWord s.exmem.result ∧ isWordAddress s.exmem.result = true) ∧
    (s.exmem.opcode ≠ .lw → t.memwb.result = s.exmem.result) ∧
    (s.exmem.opcode = .sw → t.dmem.readWord s.exmem.result = s.exmem.storeValue ∧
      isWordAddress s.exmem.result = true ∧
      ∀ k : Nat, k < s.exmem.result.toNat ∨ s.exmem.result.toNat + 4 ≤ k → t.dmem.readByte k = s.dmem.readByte k) ∧
    (s.exmem.opcode ≠ .sw → t.dmem = s.dmem) ∧ (s.exmem = ExMem.bubble → t.memwb = MemWb.bubble)

/-- R210, R211, R214: Writeback and the clock edge, in a cycle that commits. Register 0 is never written. -/
def Obligations.WritebackCommits : Prop :=
  ∀ s t : State, s.BanksAgree → step s = .next t → s.frozen = false → t.fault = none →
    (s.memwb.opcode.writesReg = true → s.memwb.destReg ≠ 0 → bankGet t.regs.committed s.memwb.destReg = s.memwb.result) ∧
    (∀ r, ¬ (s.memwb.opcode.writesReg = true ∧ s.memwb.destReg = r ∧ r ≠ 0) →
      bankGet t.regs.committed r = bankGet s.regs.committed r) ∧
    t.regs.pending = t.regs.committed ∧ (t.halted = true ↔ s.memwb.opcode = .halt)

/-! ### Hazards -/

/-- R250, R251: when the stall is asserted and what a stall cycle does; Execute, Memory and Writeback go on. -/
def Obligations.StallHoldsFetchAndEmptiesExecute : Prop :=
  ∀ s : State, ∀ f : Decoded, checkFields s.ifid.instruction (refdec s.ifid.instruction) = .ok f →
    (stallSignal (refdec s.ifid.instruction) s = true ↔
      flushSignal s = false ∧ s.idex.opcode = .lw ∧ s.idex.destReg ≠ 0 ∧
      ((f.opcode.uses1 = true ∧ f.src1Reg = s.idex.destReg) ∨ (f.opcode.uses2 = true ∧ f.src2Reg = s.idex.destReg))) ∧
    (stallSignal (refdec s.ifid.instruction) s = true → s.frozen = false → memError s = none →
      ∃ t, step s = .next t ∧ t.fault = none ∧ t.pc = s.pc ∧ t.ifid = s.ifid ∧ t.nextInstNo = s.nextInstNo ∧
        t.idex = IdEx.bubble ∧ t.exmem = exmemNext s ∧ t.memwb = memwbNext s ∧ t.regs = regsNext s ∧ t.dmem = dmemNext s)

/-- R252: a stall lasts one cycle; in the next, the held word goes to Execute while the load is in Memory, and one cycle
later it is given the loaded word. -/
def Obligations.StallLastsOneCycle : Prop :=
  ∀ s t : State, s.PipelineInv → step s = .next t → s.frozen = false → t.fault = none →
    stallSignal (refdec s.ifid.instruction) s = true →
    stallSignal (refdec t.ifid.instruction) t = false ∧ t.exmem.opcode = .lw ∧
    ∀ u, step t = .next u → u.fault = none →
      (u.idex.opcode.uses1 = true → u.idex.src1Reg = t.exmem.destReg →
        operandA u = t.dmem.readWord t.exmem.result) ∧
      (u.idex.opcode.uses2 = true → u.idex.src2Reg = t.exmem.destReg →
        operandB u = t.dmem.readWord t.exmem.result)

/-- R264: an ALU instruction in Execute and one in Decode that needs its result: no stall, and the second is given the
first's ALU result in its Execute cycle. -/
def Obligations.BackToBackResultIsForwarded : Prop :=
  ∀ s t : State, step s = .next t → s.frozen = false → t.fault = none →
    (s.idex.opcode = .alur ∨ s.idex.opcode = .addi) → s.idex.destReg ≠ 0 →
    stallSignal (refdec s.ifid.instruction) s = false ∧ flushSignal s = false ∧
    (t.idex.opcode.uses1 = true → t.idex.src1Reg = s.idex.destReg →
      operandA t = alu s.idex.aluOp (operandA s) (aluInputB s)) ∧
    (t.idex.opcode.uses2 = true → t.idex.src2Reg = s.idex.destReg →
      operandB t = alu s.idex.aluOp (operandA s) (aluInputB s))

/-- R254 to R256: a taken branch in Execute squashes whatever is in Decode and in Fetch, which raise nothing; the branch
itself moves on and the next word is fetched at the target. -/
def Obligations.FlushSquashesYoungerWords : Prop :=
  ∀ s : State, s.frozen = false → flushSignal s = true → memError s = none →
    ∃ t, step s = .next t ∧ (∀ i, exec i s = .next t) ∧ (∀ dec, cycleWith dec s = t) ∧
      t.fault = none ∧ t.ifid = IfId.bubble ∧ t.idex = IdEx.bubble ∧ t.pc = branchTarget s.idex.pc s.idex.immediate ∧
      t.exmem = exmemNext s ∧ t.exmem.opcode.isBranch = true ∧ t.nextInstNo = s.nextInstNo ∧
      t.fetchStopped = s.fetchStopped

/-- R172, R182, R258: no two of the signals that redirect the Fetch unit are asserted together, in any state. -/
def Obligations.FetchSignalsExclude : Prop :=
  ∀ (v : Option RawFields) (s : State),
    ¬ (flushSignal s = true ∧ stallSignal v s = true) ∧ ¬ (flushSignal s = true ∧ haltDec v s = true) ∧
    ¬ (stallSignal v s = true ∧ haltDec v s = true)

/-- R261: in every state that meets the invariant, the operands the multiplexers give the instruction in Execute are the
registers as sequential execution has them. -/
def Obligations.ForwardedOperandsAreSequential : Prop :=
  ∀ s : State, s.PipelineInv →
    (s.idex.opcode.uses1 = true → operandA s = s.seqA) ∧ (s.idex.opcode.uses2 = true → operandB s = s.seqB)

/-- R174: once the fetch has stopped, no cycle depends on instruction memory. -/
def Obligations.NothingIsFetchedAfterHalt : Prop :=
  ∀ (s t : State) (m : Memory), s.PipelineInv → s.fetchStopped = true → step s = .next t →
    step { s with imem := m } = .next { t with imem := m } ∧ t.pc = s.pc ∧ t.nextInstNo = s.nextInstNo ∧
    t.ifid = IfId.bubble

/-! ### Errors -/

/-- R274: a cycle that raises an error changes nothing but `fault`, whose report numbers the cycle in progress. -/
def Obligations.ErrorCommitsNothing : Prop :=
  ∀ s t : State, step s = .next t → s.fault = none → t.fault ≠ none →
    ∃ r, t = { s with fault := some r } ∧ r.cycle = s.cycles + 1

/-- R275: the failing cycle number of a report, from reset with any parameters: that many cycles lead to the fault and one
fewer lead to no fault. -/
def Obligations.ReportNumbersFailingCycle : Prop :=
  ∀ (p : Params) (n : Nat) (u : State) (r : ErrorReport),
    core.run n (State.resetWith p) = .next u → u.fault = some r →
    ∃ k v, r.cycle = k + 1 ∧ k < n ∧ core.run k (State.resetWith p) = .next v ∧ v.fault = none ∧ step v = .next u

/-- R63, R205, R272 (a), R276: a load or store in Memory with a misaligned address raises `MisalignedAccess` whatever the
other stages would raise. -/
def Obligations.MisalignedDataAccessRaises : Prop :=
  ∀ s : State, s.frozen = false → (s.exmem.opcode = .lw ∨ s.exmem.opcode = .sw) → s.exmem.result.toNat % 4 ≠ 0 →
    ∀ dec, cycleWith dec s =
      { s with fault := some ⟨.misalignedAccess s.exmem.result, s.exmem.instNo, s.cycles + 1⟩ }

/-- R115, R273: a word the decoder does not know, or answers with a value outside an enum, raises `UnknownOpcode`, unless
it is squashed or an older access is misaligned. -/
def Obligations.UnknownWordRaises : Prop :=
  ∀ (dec : Decoder) (s : State), s.frozen = false → flushSignal s = false → memError s = none →
    (dec s.ifid.instruction = none ∨ ∃ f, dec s.ifid.instruction = some f ∧
      (Opcode.ofCode f.opcode = none ∨ AluOp.ofCode f.aluOp = none)) →
    cycleWith dec s = { s with fault := some ⟨.unknownOpcode s.ifid.instruction, s.ifid.instNo, s.cycles + 1⟩ }

/-- R115, R271: a decoder's answer inside both enums with a register index above 31 raises `OutOfRange` of the first such
index, unless the word is squashed or an older access is misaligned; and so does the meaning of an instruction that names
such a register. Which of several is reported is the model's choice (notes/assumptions/5.md). -/
def Obligations.IllFormedInstructionRaisesOutOfRange : Prop :=
  (∀ (dec : Decoder) (f : RawFields) (s : State), s.frozen = false → flushSignal s = false → memError s = none →
    dec s.ifid.instruction = some f → Opcode.ofCode f.opcode ≠ none → AluOp.ofCode f.aluOp ≠ none →
    (31 < f.src1Reg ∨ 31 < f.src2Reg ∨ 31 < f.destReg) →
    ∃ r, f.badIndex = some r ∧ 31 < r ∧
      cycleWith dec s = { s with fault := some ⟨.outOfRange r, s.ifid.instNo, s.cycles + 1⟩ }) ∧
  (∀ (i : Instr) (s : State), i.wellFormed = false → s.frozen = false → flushSignal s = false → memError s = none →
    ∃ r, i.registers.find? (fun q => 31 < q) = some r ∧
      exec i s = .next { s with fault := some ⟨.outOfRange r, s.ifid.instNo, s.cycles + 1⟩ })

/-- R185, R272 (b), R276: a misaligned PC raises `MisalignedAccess` only in a cycle that would latch the word and in which
no older instruction raises an error. -/
def Obligations.MisalignedFetchRaises : Prop :=
  ∀ s : State, s.frozen = false → memError s = none → s.pc.toNat % 4 ≠ 0 →
    ∀ f, checkFields s.ifid.instruction (refdec s.ifid.instruction) = .ok f →
    (flushSignal s = false → stallSignal (refdec s.ifid.instruction) s = false → s.fetchStopped = false →
      f.opcode ≠ .halt →
      step s = .next { s with fault := some ⟨.misalignedAccess s.pc, s.nextInstNo, s.cycles + 1⟩ }) ∧
    (flushSignal s = true ∨ stallSignal (refdec s.ifid.instruction) s = true ∨ s.fetchStopped = true ∨ f.opcode = .halt →
      ∃ t, step s = .next t ∧ t.fault = none)

/-! ### The instructions. `s.accepts` says that the word in Decode goes to Execute in this cycle. `State.Issued` gives the
decoded record, the architectural effect and when it lands in `committed` and `DMEM`; no flag exists and no error is
raised. The architectural state after is the one before but for what is named, so each statement is its frame too. -/

/-- R170. -/
def Obligations.NopCompletes : Prop :=
  ∀ s : State, s.PipelineInv → s.accepts [] = true →
    decodeWord 0x00000000 = .ok .nop ∧
    ∃ t, exec .nop s = .next t ∧ s.Issued t ⟨.nop, .none, 0, 0, 0, 0⟩ { s.arch with pc := s.arch.pc + 4 }

/-- R131, `rd` = 0 included, which discards (R12). -/
def Obligations.AddCompletes : Prop :=
  ∀ (s : State) (rd rs rt : Nat), rd ≤ 31 → rs ≤ 31 → rt ≤ 31 → s.PipelineInv → s.accepts [rs, rt] = true →
    decodeWord (encode (.add rd rs rt)) = .ok (.add rd rs rt) ∧
    ∃ t, exec (.add rd rs rt) s = .next t ∧
      s.Issued t ⟨.alur, .add, BitVec.ofNat 5 rs, BitVec.ofNat 5 rt, BitVec.ofNat 5 rd, 0⟩
        (s.arch.writeNext rd (s.arch.x rs + s.arch.x rt))

/-- R132. -/
def Obligations.SubCompletes : Prop :=
  ∀ (s : State) (rd rs rt : Nat), rd ≤ 31 → rs ≤ 31 → rt ≤ 31 → s.PipelineInv → s.accepts [rs, rt] = true →
    decodeWord (encode (.sub rd rs rt)) = .ok (.sub rd rs rt) ∧
    ∃ t, exec (.sub rd rs rt) s = .next t ∧
      s.Issued t ⟨.alur, .sub, BitVec.ofNat 5 rs, BitVec.ofNat 5 rt, BitVec.ofNat 5 rd, 0⟩
        (s.arch.writeNext rd (s.arch.x rs - s.arch.x rt))

/-- R133. -/
def Obligations.AndCompletes : Prop :=
  ∀ (s : State) (rd rs rt : Nat), rd ≤ 31 → rs ≤ 31 → rt ≤ 31 → s.PipelineInv → s.accepts [rs, rt] = true →
    decodeWord (encode (.and rd rs rt)) = .ok (.and rd rs rt) ∧
    ∃ t, exec (.and rd rs rt) s = .next t ∧
      s.Issued t ⟨.alur, .and, BitVec.ofNat 5 rs, BitVec.ofNat 5 rt, BitVec.ofNat 5 rd, 0⟩
        (s.arch.writeNext rd (s.arch.x rs &&& s.arch.x rt))

/-- R134. -/
def Obligations.OrCompletes : Prop :=
  ∀ (s : State) (rd rs rt : Nat), rd ≤ 31 → rs ≤ 31 → rt ≤ 31 → s.PipelineInv → s.accepts [rs, rt] = true →
    decodeWord (encode (.or rd rs rt)) = .ok (.or rd rs rt) ∧
    ∃ t, exec (.or rd rs rt) s = .next t ∧
      s.Issued t ⟨.alur, .or, BitVec.ofNat 5 rs, BitVec.ofNat 5 rt, BitVec.ofNat 5 rd, 0⟩
        (s.arch.writeNext rd (s.arch.x rs ||| s.arch.x rt))

/-- R135. -/
def Obligations.XorCompletes : Prop :=
  ∀ (s : State) (rd rs rt : Nat), rd ≤ 31 → rs ≤ 31 → rt ≤ 31 → s.PipelineInv → s.accepts [rs, rt] = true →
    decodeWord (encode (.xor rd rs rt)) = .ok (.xor rd rs rt) ∧
    ∃ t, exec (.xor rd rs rt) s = .next t ∧
      s.Issued t ⟨.alur, .xor, BitVec.ofNat 5 rs, BitVec.ofNat 5 rt, BitVec.ofNat 5 rd, 0⟩
        (s.arch.writeNext rd (s.arch.x rs ^^^ s.arch.x rt))

/-- R136. -/
def Obligations.SltCompletes : Prop :=
  ∀ (s : State) (rd rs rt : Nat), rd ≤ 31 → rs ≤ 31 → rt ≤ 31 → s.PipelineInv → s.accepts [rs, rt] = true →
    decodeWord (encode (.slt rd rs rt)) = .ok (.slt rd rs rt) ∧
    ∃ t, exec (.slt rd rs rt) s = .next t ∧
      s.Issued t ⟨.alur, .slt, BitVec.ofNat 5 rs, BitVec.ofNat 5 rt, BitVec.ofNat 5 rd, 0⟩
        (s.arch.writeNext rd (if (s.arch.x rs).toInt < (s.arch.x rt).toInt then 1 else 0))

/-- R137; only `rs` is a source. -/
def Obligations.AddiCompletes : Prop :=
  ∀ (s : State) (rt rs : Nat) (imm : BitVec 16), rt ≤ 31 → rs ≤ 31 → s.PipelineInv → s.accepts [rs] = true →
    decodeWord (encode (.addi rt rs imm)) = .ok (.addi rt rs imm) ∧
    ∃ t, exec (.addi rt rs imm) s = .next t ∧
      s.Issued t ⟨.addi, .add, BitVec.ofNat 5 rs, 0, BitVec.ofNat 5 rt, sext32 imm⟩
        (s.arch.writeNext rt (s.arch.x rs + sext32 imm))

/-- R150, R152 for an aligned address. -/
def Obligations.LoadWordCompletes : Prop :=
  ∀ (s : State) (rt rs : Nat) (imm : BitVec 16), rt ≤ 31 → rs ≤ 31 → s.PipelineInv → s.accepts [rs] = true →
    (s.arch.x rs + sext32 imm).toNat % 4 = 0 →
    decodeWord (encode (.lw rt imm rs)) = .ok (.lw rt imm rs) ∧
    ∃ t, exec (.lw rt imm rs) s = .next t ∧
      s.Issued t ⟨.lw, .add, BitVec.ofNat 5 rs, 0, BitVec.ofNat 5 rt, sext32 imm⟩
        (s.arch.writeNext rt (s.arch.dmem.readWord (s.arch.x rs + sext32 imm)))

/-- R151, R152 for an aligned address; the stored bytes are those of the word at the effective address and no other byte
changes. -/
def Obligations.StoreWordCompletes : Prop :=
  ∀ (s : State) (rt rs : Nat) (imm : BitVec 16), rt ≤ 31 → rs ≤ 31 → s.PipelineInv → s.dmem.wf →
    s.accepts [rs, rt] = true → (s.arch.x rs + sext32 imm).toNat % 4 = 0 →
    decodeWord (encode (.sw rt imm rs)) = .ok (.sw rt imm rs) ∧
    ∃ t, exec (.sw rt imm rs) s = .next t ∧
      s.Issued t ⟨.sw, .add, BitVec.ofNat 5 rs, BitVec.ofNat 5 rt, 0, sext32 imm⟩
        { s.arch with dmem := s.arch.dmem.writeWord (s.arch.x rs + sext32 imm) (s.arch.x rt), pc := s.arch.pc + 4 } ∧
      t.arch.dmem.readWord (s.arch.x rs + sext32 imm) = s.arch.x rt ∧
      ∀ k : Nat, k < (s.arch.x rs + sext32 imm).toNat ∨ (s.arch.x rs + sext32 imm).toNat + 4 ≤ k →
        t.arch.dmem.readByte k = s.arch.dmem.readByte k

/-- R150, R151 for a misaligned address: the instruction goes to Execute, and in its Memory cycle, if no error stops the
machine before, raises `MisalignedAccess` of the effective address. -/
def Obligations.MisalignedLoadStoreRaisesInMemory : Prop :=
  ∀ (s : State) (i : Instr) (rt rs : Nat) (imm : BitVec 16), rt ≤ 31 → rs ≤ 31 → s.PipelineInv →
    (i = .lw rt imm rs ∧ s.accepts [rs] = true) ∨ (i = .sw rt imm rs ∧ s.accepts [rs, rt] = true) →
    (s.arch.x rs + sext32 imm).toNat % 4 ≠ 0 →
    ∃ t, exec i s = .next t ∧ t.fault = none ∧
      ∀ u, step t = .next u → u.fault = none →
        step u = .next { u with
          fault := some ⟨.misalignedAccess (s.arch.x rs + sext32 imm), s.ifid.instNo, u.cycles + 1⟩ }

/-- R161 to R163; taken, it squashes the two younger words in its Execute cycle. -/
def Obligations.BranchIfEqualCompletes : Prop :=
  ∀ (s : State) (rs rt : Nat) (off : BitVec 16), rs ≤ 31 → rt ≤ 31 → s.PipelineInv → s.accepts [rs, rt] = true →
    decodeWord (encode (.beq rs rt off)) = .ok (.beq rs rt off) ∧
    ∃ t, exec (.beq rs rt off) s = .next t ∧
      s.Issued t ⟨.beq, .sub, BitVec.ofNat 5 rs, BitVec.ofNat 5 rt, 0, sext32 off⟩
        { s.arch with
          pc := if s.arch.x rs = s.arch.x rt then s.arch.pc + 4 + (sext32 off <<< 2) else s.arch.pc + 4 } ∧
      (s.arch.x rs = s.arch.x rt → ∀ u, step t = .next u → u.fault = none →
        u.pc = s.ifid.pc + 4 + (sext32 off <<< 2) ∧ u.ifid = IfId.bubble ∧ u.idex = IdEx.bubble)

/-- R161, R162, R164; taken, it squashes the two younger words in its Execute cycle. -/
def Obligations.BranchIfNotEqualCompletes : Prop :=
  ∀ (s : State) (rs rt : Nat) (off : BitVec 16), rs ≤ 31 → rt ≤ 31 → s.PipelineInv → s.accepts [rs, rt] = true →
    decodeWord (encode (.bne rs rt off)) = .ok (.bne rs rt off) ∧
    ∃ t, exec (.bne rs rt off) s = .next t ∧
      s.Issued t ⟨.bne, .sub, BitVec.ofNat 5 rs, BitVec.ofNat 5 rt, 0, sext32 off⟩
        { s.arch with
          pc := if s.arch.x rs ≠ s.arch.x rt then s.arch.pc + 4 + (sext32 off <<< 2) else s.arch.pc + 4 } ∧
      (s.arch.x rs ≠ s.arch.x rt → ∀ u, step t = .next u → u.fault = none →
        u.pc = s.ifid.pc + 4 + (sext32 off <<< 2) ∧ u.ifid = IfId.bubble ∧ u.idex = IdEx.bubble)

/-- R171 to R174, R177: HALT in Decode stops the fetch, everything older completes and nothing younger has any effect,
and after three more cycles without an error the machine is halted with the PC past the HALT. -/
def Obligations.HaltCompletes : Prop :=
  ∀ s : State, s.PipelineInv → s.accepts [] = true →
    decodeWord 0xFC000000 = .ok .halt ∧
    ∃ t, exec .halt s = .next t ∧
      s.Issued t ⟨.halt, .none, 0, 0, 0, 0⟩ { s.arch with pc := s.arch.pc + 4 } ∧
      t.fetchStopped = true ∧ t.ifid = IfId.bubble ∧
      ∀ u, core.run 3 t = .next u → u.fault = none →
        u.halted = true ∧ u.regs.committed = s.arch.regs ∧ u.dmem = s.arch.dmem ∧ u.pc = s.ifid.pc + 4

/-- What the cycle of any instruction leaves unchanged: every register but the destination of the instruction in
Writeback, every byte of data memory but the word a store in Memory writes, and instruction memory. -/
def Obligations.EveryInstructionFrame : Prop :=
  ∀ (i : Instr) (s t : State), s.BanksAgree → s.dmem.wf → exec i s = .next t →
    t.imem = s.imem ∧
    (∀ r, r ≠ s.memwb.destReg ∨ s.memwb.opcode.writesReg = false →
      bankGet t.regs.committed r = bankGet s.regs.committed r) ∧
    (∀ k, s.exmem.opcode ≠ .sw ∨ k < s.exmem.result.toNat ∨ s.exmem.result.toNat + 4 ≤ k →
      t.dmem.readByte k = s.dmem.readByte k) ∧
    (s.halted = true → t = s) ∧ (t.fault ≠ s.fault → t = { s with fault := t.fault }) ∧
    (t.fetchStopped ≠ s.fetchStopped → t.fetchStopped = true → i = .halt)

/-! ### Reset -/

/-- The state after reset, field by field: the values of R54 to R59 with the spec's defaults D2, D3 and empty images
(notes/assumptions/2.md). -/
def Obligations.ResetValues : Prop :=
  State.reset.pc = 0x00000000 ∧ (∀ r, bankGet State.reset.regs.committed r = 0 ∧ bankGet State.reset.regs.pending r = 0) ∧
  State.reset.ifid = ⟨0, 0, 0⟩ ∧ State.reset.idex = ⟨0, 0, .nop, .none, 0, 0, 0, 0, 0, 0⟩ ∧
  State.reset.exmem = ⟨0, .nop, 0, 0, 0⟩ ∧ State.reset.memwb = ⟨0, .nop, 0, 0⟩ ∧ State.reset.nextInstNo = 1 ∧
  State.reset.fetchStopped = false ∧ State.reset.halted = false ∧ State.reset.fault = none ∧
  (∀ a, State.reset.imem.readWord a = 0 ∧ State.reset.dmem.readWord a = 0) ∧
  State.reset = State.resetWith Params.default

/-- R54 to R59: reset with any parameters: `INIT_REGS` but register 0, `RESET_PC`, empty latches, the images' words and 0
elsewhere; and the defaults of `INIT_REGS` and `RESET_PC`. -/
def Obligations.ResetTakesParameters : Prop :=
  (Params.default.resetPc = 0x00000000 ∧ ∀ r, bankGet Params.default.initRegs r = 0) ∧
  ∀ p : Params, p.wellFormed = true →
    (∀ r, bankGet (State.resetWith p).regs.committed r = (if r = 0 then 0 else bankGet p.initRegs r)) ∧
    (State.resetWith p).regs.pending = (State.resetWith p).regs.committed ∧
    (State.resetWith p).pc = p.resetPc ∧
    (State.resetWith p).ifid = IfId.bubble ∧ (State.resetWith p).idex = IdEx.bubble ∧
    (State.resetWith p).exmem = ExMem.bubble ∧ (State.resetWith p).memwb = MemWb.bubble ∧
    (State.resetWith p).fetchStopped = false ∧ (State.resetWith p).halted = false ∧ (State.resetWith p).fault = none ∧
    (State.resetWith p).nextInstNo = 1 ∧
    ∀ a, isWordAddress a = true →
      (State.resetWith p).imem.readWord a = (p.imemImage.lookup a).getD 0 ∧
      (State.resetWith p).dmem.readWord a = (p.dmemImage.lookup a).getD 0

/-- The invariants hold after reset with any parameters a loader may hand over. -/
def Obligations.InvariantsHoldAtReset : Prop :=
  ∀ p : Params, p.wellFormed = true → (State.resetWith p).PipelineInv ∧ (State.resetWith p).InOrder ∧
    (State.resetWith p).MemoriesWf

/-! ### Invariants and whole-machine results -/

/-- R216: every step keeps the pipeline's invariant, from every state that meets it. -/
def Obligations.StepKeepsPipelineInvariant : Prop :=
  ∀ s t : State, s.PipelineInv → step s = .next t → t.PipelineInv

/-- R216 with the parameter `DECODE` open: a cycle with any decoder that meets R91 keeps the invariant. -/
def Obligations.AnyContractDecoderKeepsInvariant : Prop :=
  ∀ dec : Decoder, DecodeContract dec → ∀ s : State, s.PipelineInv → (cycleWith dec s).PipelineInv

/-- R216 (f): every step keeps the instructions in the latches in program order, while `nextInstNo` does not wrap (U11). -/
def Obligations.StepKeepsProgramOrder : Prop :=
  ∀ s t : State, s.InOrder → s.nextInstNo + 1 ≠ 0 → step s = .next t → t.InOrder

/-- Every step keeps both memories in canonical form. -/
def Obligations.StepKeepsMemoriesCanonical : Prop :=
  ∀ s t : State, s.MemoriesWf → step s = .next t → t.MemoriesWf

/-- R42: sequence numbers never control anything: two states that differ only in them step to states that differ only in
them. -/
def Obligations.SequenceNumbersNeverControl : Prop :=
  ∀ s₁ s₂ t₁ t₂ : State, s₁.eraseInstNo = s₂.eraseInstNo → step s₁ = .next t₁ → step s₂ = .next t₂ →
    t₁.eraseInstNo = t₂.eraseInstNo

/-- The pipeline follows the sequential machine of R217, both with any decoder that meets its contract, from every state
that meets the invariant: a cycle in which the word in Decode goes to Execute is one step of that machine on the
architectural view, and any other cycle is none. The effect of a record that no word of DPS-REF has is the model's choice
(notes/assumptions/15.md). -/
def Obligations.PipelineFollowsSequentialMachine : Prop :=
  ∀ (dec : Decoder) (s : State), DecodeContract dec → s.PipelineInv → s.frozen = false → s.nextInstNo ≠ 0 →
    let t := cycleWith dec s
    t.fault = none →
    (s.issues (dec s.ifid.instruction) = false → t.arch = s.arch) ∧
    (s.issues (dec s.ifid.instruction) = true →
      ∃ d, checkFields s.ifid.instruction (dec s.ifid.instruction) = .ok d ∧
        match seqEffect d s.arch with
        | .next a => t.arch = a
        | .stopped => t.arch.regs = s.arch.regs ∧ t.arch.dmem = s.arch.dmem ∧ t.fetchStopped = true
        | .error e => e = .misalignedAccess t.seqResult ∧ (t.idex.opcode = .lw ∨ t.idex.opcode = .sw))

/-- What the architectural view says arrives: two cycles on, the stores in flight are in `DMEM`, and three cycles on, the
results in flight are in `committed`. -/
def Obligations.InFlightInstructionsRetire : Prop :=
  ∀ s : State, s.PipelineInv →
    (∀ u, core.run 2 s = .next u → u.fault = none → u.dmem = s.arch.dmem) ∧
    (∀ u, core.run 3 s = .next u → u.fault = none → u.regs.committed = s.arch.regs)

/-- R218, R327, R177: for every decoder that meets its contract and every program on which the reference machine reaches
a HALT without error, the pipeline halts without error after exactly `n + 4 + s + 2k` cycles, with the same registers and
data memory and the PC past the HALT. Runs of 2^64 cycles or more are left out, as U11 allows, since `nextInstNo` wraps
there. With `REFDEC` the cycles are the core's steps (`StepIsCycleWithReferenceDecoder`). The effect of a record that no
word of DPS-REF has is the model's choice (notes/assumptions/15.md). -/
def Obligations.PipelinedRunEqualsSequentialRun : Prop :=
  ∀ (dec : Decoder) (p : Params) (fuel : Nat) (r : SeqRun), DecodeContract dec → p.wellFormed = true →
    seqRun dec (State.resetWith p).imem fuel none (State.resetWith p).arch = some r →
    r.executed + 4 + r.stalls + 2 * r.taken < 2 ^ 64 →
    let u := cyclesWith dec (r.executed + 3 + r.stalls + 2 * r.taken) (State.resetWith p)
    let t := cyclesWith dec (r.executed + 4 + r.stalls + 2 * r.taken) (State.resetWith p)
    u.halted = false ∧ u.fault = none ∧ t.halted = true ∧ t.fault = none ∧
      t.regs.committed = r.final.regs ∧ t.dmem = r.final.dmem ∧ t.pc = r.final.pc + 4

/-- R278 (b), (c), for every decoder that meets its contract: where the reference machine stops with an error `e` in state
`a`, the pipeline reaches the cycle in which the failing instruction is in Decode, with everything older amounting to `a`.
An `UnknownOpcode` is raised there and then, for that instruction. With a `MisalignedAccess` the instruction goes on to
Execute, and the word at `a.pc + 4` to Decode: if that word decodes, the access is raised one cycle later from Memory, for
the failing instruction; if it does not, its own `UnknownOpcode` is raised instead. Runs of 2^61 instructions or more are
left out, since `nextInstNo` could wrap in them (U11). The effect of a record that no word of DPS-REF has is the model's
choice (notes/assumptions/15.md). -/
def Obligations.SequentialErrorStopsPipeline : Prop :=
  ∀ (dec : Decoder) (p : Params) (fuel : Nat) (e : Fault) (a : ArchState),
    DecodeContract dec → p.wellFormed = true → fuel < 2 ^ 61 →
    seqError dec (State.resetWith p).imem fuel (State.resetWith p).arch = some (e, a) →
    let word := (State.resetWith p).imem.readWord a.pc
    let nextWord := (State.resetWith p).imem.readWord (a.pc + 4)
    ∃ k, let s := cyclesWith dec k (State.resetWith p)
      s.frozen = false ∧ s.arch = a ∧ s.ifid.pc = a.pc ∧ s.ifid.instruction = word ∧
      match e with
      | .unknownOpcode w => w = word ∧ cycleWith dec s = { s with fault := some ⟨e, s.ifid.instNo, k + 1⟩ }
      | .misalignedAccess _ =>
        let t := cycleWith dec s
        let u := cycleWith dec t
        t.fault = none ∧ t.idex.instNo = s.ifid.instNo ∧ t.idex.pc = a.pc ∧
          t.ifid = ⟨s.nextInstNo, nextWord, a.pc + 4⟩ ∧
          if (dec nextWord).isSome = true then
            u.fault = none ∧ u.exmem.instNo = s.ifid.instNo ∧
              cycleWith dec u = { u with fault := some ⟨e, s.ifid.instNo, k + 3⟩ }
          else u = { t with fault := some ⟨.unknownOpcode nextWord, t.ifid.instNo, k + 2⟩ }
      | .outOfRange _ => False

/-- R278 (a), for every decoder that meets its contract: the pipeline raises errors only in runs that the reference
machine stops with an error; words off the executed path raise none. Runs of 2^64 cycles or more are left out, since
`nextInstNo` wraps in them (U11). The effect of a record that no word of DPS-REF has is the model's choice
(notes/assumptions/15.md). -/
def Obligations.PipelineErrorsAreSequential : Prop :=
  ∀ (dec : Decoder) (p : Params) (n : Nat), DecodeContract dec → p.wellFormed = true → n < 2 ^ 64 →
    (cyclesWith dec n (State.resetWith p)).fault ≠ none →
    ∃ fuel e a, seqError dec (State.resetWith p).imem fuel (State.resetWith p).arch = some (e, a)
end

