-- ==== Sys2Proof/Laws/Decode.lean ====
section
/-! SUPPORT. Words as numbers: the fields of encoded words, and what the masks of the opcode map compare. -/

namespace Sys2Proof

/-! ### Concatenation and extraction as arithmetic -/

theorem toNat_concat {m n : Nat} (x : BitVec m) (y : BitVec n) : (x ++ y).toNat = x.toNat * 2 ^ n + y.toNat := by
  rw [BitVec.toNat_append, ← Nat.shiftLeft_add_eq_or_of_lt y.isLt, Nat.shiftLeft_eq]

theorem toNat_field {n : Nat} (w : BitVec n) (lo len : Nat) : (w.extractLsb' lo len).toNat = w.toNat / 2 ^ lo % 2 ^ len := by
  rw [BitVec.extractLsb'_toNat, Nat.shiftRight_eq_div_pow]

theorem encodeR_toNat (op funct : Code) (rd rs rt : Nat) :
    (encodeR op funct rd rs rt).toNat =
      op.toNat * 2 ^ 26 + rs % 32 * 2 ^ 21 + rt % 32 * 2 ^ 16 + rd % 32 * 2 ^ 11 + funct.toNat := by
  simp only [encodeR, toNat_concat, BitVec.toNat_ofNat]
  omega

theorem encodeI_toNat (op : Code) (rt rs : Nat) (imm : BitVec 16) :
    (encodeI op rt rs imm).toNat = op.toNat * 2 ^ 26 + rs % 32 * 2 ^ 21 + rt % 32 * 2 ^ 16 + imm.toNat := by
  simp only [encodeI, toNat_concat, BitVec.toNat_ofNat]
  omega

theorem encodeN_toNat (op : Code) : (encodeN op).toNat = op.toNat * 2 ^ 26 := by
  simp only [encodeN, toNat_concat, BitVec.toNat_ofNat]
  omega

/-! ### Fields of an encoded word -/

theorem fields_encodeR (op funct : Code) (rd rs rt : Nat) :
    opField (encodeR op funct rd rs rt) = op ∧ rsField (encodeR op funct rd rs rt) = BitVec.ofNat 5 rs ∧
    rtField (encodeR op funct rd rs rt) = BitVec.ofNat 5 rt ∧ rdField (encodeR op funct rd rs rt) = BitVec.ofNat 5 rd ∧
    zeroField (encodeR op funct rd rs rt) = 0#5 ∧ functField (encodeR op funct rd rs rt) = funct := by
  have hop := op.isLt
  have hf := funct.isLt
  refine ⟨?_, ?_, ?_, ?_, ?_, ?_⟩ <;> apply BitVec.eq_of_toNat_eq <;>
    simp only [opField, rsField, rtField, rdField, zeroField, functField, toNat_field, encodeR_toNat, BitVec.toNat_ofNat] <;>
    omega

theorem fields_encodeI (op : Code) (rt rs : Nat) (imm : BitVec 16) :
    opField (encodeI op rt rs imm) = op ∧ rsField (encodeI op rt rs imm) = BitVec.ofNat 5 rs ∧
    rtField (encodeI op rt rs imm) = BitVec.ofNat 5 rt ∧ immField (encodeI op rt rs imm) = imm := by
  have hop := op.isLt
  have hi := imm.isLt
  refine ⟨?_, ?_, ?_, ?_⟩ <;> apply BitVec.eq_of_toNat_eq <;>
    simp only [opField, rsField, rtField, immField, toNat_field, encodeI_toNat, BitVec.toNat_ofNat] <;> omega

/-! ### Masks -/

theorem concat_inj {m n : Nat} {x x' : BitVec m} {y y' : BitVec n} (h : x ++ y = x' ++ y') : x = x' ∧ y = y' := by
  have h' := congrArg BitVec.toNat h
  rw [toNat_concat, toNat_concat] at h'
  have hy := y.isLt
  have hy' := y'.isLt
  have hmod : y.toNat = y'.toNat := by
    have := congrArg (· % 2 ^ n) h'
    simpa [Nat.mul_add_mod', Nat.mod_eq_of_lt hy, Nat.mod_eq_of_lt hy'] using this
  refine ⟨BitVec.eq_of_toNat_eq ?_, BitVec.eq_of_toNat_eq hmod⟩
  rw [hmod] at h'
  exact Nat.eq_of_mul_eq_mul_right (Nat.two_pow_pos n) (Nat.add_right_cancel h')

/-- A mask of format R looks at `op` and at the low 11 bits, `zero` and `funct`. -/
theorem matches_maskR (w : Word) (p : Code) (q : BitVec 11) :
    w &&& 0xFC0007FF = p ++ 0#15 ++ q ↔ opField w = p ∧ w.extractLsb' 0 11 = q := by
  have split : w = opField w ++ w.extractLsb' 11 15 ++ w.extractLsb' 0 11 := by
    apply BitVec.eq_of_toNat_eq
    have hw := w.isLt
    simp only [opField, toNat_concat, toNat_field]
    omega
  have mask : (0xFC0007FF : Word) = (BitVec.allOnes 6 ++ 0#15) ++ BitVec.allOnes 11 := by decide
  have meet : w &&& 0xFC0007FF = opField w ++ 0#15 ++ w.extractLsb' 0 11 := by
    conv_lhs => rw [split, mask, BitVec.and_append, BitVec.and_append]
    rw [BitVec.and_allOnes, BitVec.and_allOnes, BitVec.and_zero]
  rw [meet]
  refine ⟨fun h => ?_, fun h => by rw [h.1, h.2]⟩
  have h1 := concat_inj h
  exact ⟨(concat_inj h1.1).1, h1.2⟩

/-- A mask of format I looks at `op` alone. -/
theorem matches_maskI (w : Word) (p : Code) : w &&& 0xFC000000 = p ++ 0#26 ↔ opField w = p := by
  have split : w = opField w ++ w.extractLsb' 0 26 := by
    apply BitVec.eq_of_toNat_eq
    have hw := w.isLt
    simp only [opField, toNat_concat, toNat_field]
    omega
  have mask : (0xFC000000 : Word) = BitVec.allOnes 6 ++ 0#26 := by decide
  have meet : w &&& 0xFC000000 = opField w ++ 0#26 := by
    conv_lhs => rw [split, mask, BitVec.and_append]
    rw [BitVec.and_allOnes, BitVec.and_zero]
  rw [meet]
  exact ⟨fun h => (concat_inj h).1, fun h => by rw [h]⟩

/-- A mask of format N looks at every bit. -/
theorem matches_maskN (w : Word) : w &&& 0xFFFFFFFF = w := by
  have mask : (0xFFFFFFFF : Word) = BitVec.allOnes 32 := by decide
  rw [mask, BitVec.and_allOnes]

/-- The zero word is NOP (R101). -/
@[simp] theorem decodeWord_zero : decodeWord 0#32 = .ok .nop := by decide

end Sys2Proof
end

