-- ==== Sys2Proof/Laws/Memory.lean ====
section
/-! SUPPORT. Reading after writing, byte by byte and word by word, and the canonical form. -/

namespace Sys2Proof.Machine

/-! ### Bytes of a word -/

theorem wordOfBytes_byteOfWord (w : Word) :
    wordOfBytes (byteOfWord w 0) (byteOfWord w 1) (byteOfWord w 2) (byteOfWord w 3) = w := by
  apply BitVec.eq_of_getLsbD_eq
  intro i hi
  simp only [wordOfBytes, byteOfWord, BitVec.getLsbD_append, BitVec.getLsbD_extractLsb']
  rcases Nat.lt_or_ge i 8 with h8 | h8
  · simp [h8]
  rcases Nat.lt_or_ge i 16 with h16 | h16
  · simp [Nat.not_lt.mpr h8, show i - 8 < 8 by omega, show 8 + (i - 8) = i by omega]
  rcases Nat.lt_or_ge i 24 with h24 | h24
  · simp [Nat.not_lt.mpr h8, show ¬ i - 8 < 8 by omega, show i - 8 - 8 < 8 by omega,
      show 16 + (i - 8 - 8) = i by omega]
  · simp [Nat.not_lt.mpr h8, show ¬ i - 8 < 8 by omega, show ¬ i - 8 - 8 < 8 by omega,
      show i - 8 - 8 - 8 < 8 by omega, show 24 + (i - 8 - 8 - 8) = i by omega]

/-! ### One byte -/

@[simp] theorem Memory.unlisted_eq : Memory.unlisted = 0 := rfl

@[simp] theorem Memory.readByte_nil (k : Nat) : Memory.readByte [] k = 0 := rfl

theorem Memory.readByte_cons (a : Nat) (b : Byte) (m : Memory) (k : Nat) :
    Memory.readByte ((a, b) :: m) k = if k = a then b else Memory.readByte m k := rfl

theorem Memory.writeByte_cons (a : Nat) (b : Byte) (m : Memory) (k : Nat) (v : Byte) :
    Memory.writeByte ((a, b) :: m) k v =
      if k < a then (if v = 0 then (a, b) :: m else (k, v) :: (a, b) :: m)
      else if k = a then (if v = 0 then m else (k, v) :: m)
      else (a, b) :: Memory.writeByte m k v := rfl

/-- An address below every listed one is unlisted. -/
theorem Memory.readByte_of_below {m : Memory} {k : Nat} (h : ∀ c ∈ m, k < c.1) : m.readByte k = 0 := by
  induction m with
  | nil => rfl
  | cons c m ih =>
    obtain ⟨a, b⟩ := c
    have hk : k < a := h (a, b) (List.mem_cons_self ..)
    rw [Memory.readByte_cons, if_neg (Nat.ne_of_lt hk)]
    exact ih fun c hc => h c (List.mem_cons_of_mem _ hc)

/-- In a rising memory, a byte written reads back, and every other byte is as before. -/
theorem Memory.readByte_writeByte {m : Memory} (hm : m.Pairwise fun c d => c.1 < d.1) (k j : Nat) (v : Byte) :
    (m.writeByte k v).readByte j = if j = k then v else m.readByte j := by
  induction m with
  | nil =>
    unfold Memory.writeByte
    split
    · next hv => simp only [Memory.unlisted_eq] at hv; simp [hv]
    · rfl
  | cons c m ih =>
    obtain ⟨a, b⟩ := c
    obtain ⟨first, rest⟩ := List.pairwise_cons.mp hm
    have below : ∀ i, i ≤ a → Memory.readByte m i = 0 := fun i hi =>
      Memory.readByte_of_below fun c hc => Nat.lt_of_le_of_lt hi (first c hc)
    rw [Memory.writeByte_cons]
    split
    · next hlt =>
      split
      · next hv =>
        by_cases hj : j = k
        · rw [if_pos hj, Memory.readByte_cons, if_neg (by omega), below j (by omega), hv]
        · rw [if_neg hj]
      · exact Memory.readByte_cons ..
    · split
      · next heq =>
        subst heq
        split
        · next hv =>
          by_cases hj : j = k
          · rw [if_pos hj, below j (by omega), hv]
          · rw [if_neg hj, Memory.readByte_cons, if_neg hj]
        · simp only [Memory.readByte_cons]
          split <;> rfl
      · rw [Memory.readByte_cons, Memory.readByte_cons, ih rest]
        by_cases hj : j = a
        · rw [if_pos hj, if_pos hj, if_neg (by omega)]
        · rw [if_neg hj, if_neg hj]

/-! ### The canonical form -/

theorem Memory.mem_writeByte {m : Memory} {k : Nat} {v : Byte} {c : Host.Cell} (h : c ∈ m.writeByte k v) :
    c = (k, v) ∧ v ≠ 0 ∨ c ∈ m := by
  induction m with
  | nil =>
    unfold Memory.writeByte at h
    split at h
    · exact .inr h
    · next hv => exact .inl ⟨List.mem_singleton.mp h, hv⟩
  | cons d m ih =>
    obtain ⟨a, b⟩ := d
    rw [Memory.writeByte_cons] at h
    split at h
    · split at h
      · exact .inr h
      · next hv => exact (List.mem_cons.mp h).imp (⟨·, hv⟩) id
    · split at h
      · split at h
        · exact .inr (List.mem_cons_of_mem _ h)
        · next hv => exact (List.mem_cons.mp h).imp (⟨·, hv⟩) (List.mem_cons_of_mem _)
      · rcases List.mem_cons.mp h with h | h
        · exact .inr (h ▸ List.mem_cons_self ..)
        · exact (ih h).imp id (List.mem_cons_of_mem _)

theorem Memory.writeByte_rising {m : Memory} (hm : m.Pairwise fun c d => c.1 < d.1) (k : Nat) (v : Byte) :
    (m.writeByte k v).Pairwise fun c d => c.1 < d.1 := by
  induction m with
  | nil =>
    unfold Memory.writeByte
    split
    · exact hm
    · exact List.pairwise_singleton ..
  | cons d m ih =>
    obtain ⟨a, b⟩ := d
    obtain ⟨first, rest⟩ := List.pairwise_cons.mp hm
    rw [Memory.writeByte_cons]
    split
    · next hlt =>
      split
      · exact hm
      · refine List.pairwise_cons.mpr ⟨fun c hc => ?_, hm⟩
        rcases List.mem_cons.mp hc with rfl | hc
        · exact hlt
        · exact Nat.lt_trans hlt (first c hc)
    · split
      · next heq =>
        split
        · exact rest
        · exact List.pairwise_cons.mpr ⟨fun c hc => heq ▸ first c hc, rest⟩
      · refine List.pairwise_cons.mpr ⟨fun c hc => ?_, ih rest⟩
        rcases Memory.mem_writeByte hc with ⟨rfl, -⟩ | hc
        · show a < k
          omega
        · exact first c hc

/-- Writing a byte within 32 bits keeps the canonical form. -/
theorem Memory.writeByte_wf {m : Memory} (hm : m.wf) {k : Nat} (hk : k < 2 ^ 32) (v : Byte) : (m.writeByte k v).wf := by
  refine ⟨Memory.writeByte_rising hm.1 k v, fun c hc => ?_⟩
  rcases Memory.mem_writeByte hc with ⟨rfl, hv⟩ | hc
  · exact ⟨hk, hv⟩
  · exact hm.2 c hc

theorem byteAddr_lt (a : Word) (i : Nat) : byteAddr a i < 2 ^ 32 := (a + BitVec.ofNat 32 i).isLt

/-- Writing a word keeps the canonical form. -/
theorem Memory.writeWord_wf {m : Memory} (hm : m.wf) (a v : Word) : (m.writeWord a v).wf := by
  unfold Memory.writeWord
  exact Memory.writeByte_wf (Memory.writeByte_wf (Memory.writeByte_wf (Memory.writeByte_wf hm (byteAddr_lt _ _) _)
    (byteAddr_lt _ _) _) (byteAddr_lt _ _) _) (byteAddr_lt _ _) _

theorem Memory.nil_wf : Memory.wf [] := ⟨List.Pairwise.nil, fun _ hc => absurd hc (List.not_mem_nil)⟩

/-- A loaded image is in canonical form. -/
theorem Memory.ofImage_wf (image : List (Word × Word)) : (Memory.ofImage image).wf := by
  induction image with
  | nil => exact Memory.nil_wf
  | cons e image ih => exact Memory.writeWord_wf ih _ _

/-! ### Words -/

theorem toNat_mod_four {a : Word} (ha : isWordAddress a = true) : a.toNat % 4 = 0 := by
  have h0 : a.extractLsb' 0 2 = 0#2 := by simpa [isWordAddress] using ha
  have h1 := congrArg BitVec.toNat h0
  simpa [BitVec.extractLsb'_toNat] using h1

/-- The bytes of a word address do not wrap. -/
theorem byteAddr_of_aligned {a : Word} (ha : isWordAddress a = true) {i : Nat} (hi : i < 4) :
    byteAddr a i = a.toNat + i := by
  have h := toNat_mod_four ha
  have hlt := a.isLt
  simp only [byteAddr, BitVec.toNat_add, BitVec.toNat_ofNat]
  omega

theorem isWordAddress_iff {a : Word} : isWordAddress a = true ↔ a.toNat % 4 = 0 := by
  refine ⟨toNat_mod_four, fun h => ?_⟩
  have h0 : a.extractLsb' 0 2 = 0#2 := by
    apply BitVec.eq_of_toNat_eq
    simpa [BitVec.extractLsb'_toNat] using h
  simpa [isWordAddress] using h0

theorem isWordAddress_add {a b : Word} (ha : isWordAddress a = true) (hb : isWordAddress b = true) :
    isWordAddress (a + b) = true := by
  rw [isWordAddress_iff] at *
  rw [BitVec.toNat_add]
  omega

theorem isWordAddress_shiftLeft (a : Word) : isWordAddress (a <<< 2) = true := by
  rw [isWordAddress_iff, BitVec.toNat_shiftLeft, Nat.shiftLeft_eq]
  omega

/-- A word written reads back where it was written (any address; the four byte addresses differ). -/
theorem Memory.readWord_writeWord_self {m : Memory} (hm : m.wf) (a v : Word) : (m.writeWord a v).readWord a = v := by
  have h0 := hm
  have h1 := Memory.writeByte_wf h0 (byteAddr_lt a 0) (byteOfWord v 0)
  have h2 := Memory.writeByte_wf h1 (byteAddr_lt a 1) (byteOfWord v 1)
  have h3 := Memory.writeByte_wf h2 (byteAddr_lt a 2) (byteOfWord v 2)
  have d : ∀ i j, i < 4 → j < 4 → i ≠ j → byteAddr a i ≠ byteAddr a j := by
    intro i j hi hj hij
    have hlt := a.isLt
    simp only [byteAddr, BitVec.toNat_add, BitVec.toNat_ofNat]
    omega
  unfold Memory.readWord Memory.writeWord
  simp [Memory.readByte_writeByte h3.1, Memory.readByte_writeByte h2.1, Memory.readByte_writeByte h1.1,
    Memory.readByte_writeByte h0.1, d, wordOfBytes_byteOfWord]

/-- Writing a word leaves every byte outside its four as it was. -/
theorem Memory.readByte_writeWord_of_ne {m : Memory} (hm : m.wf) {a : Word} (v : Word) {k : Nat}
    (hk : ∀ i < 4, k ≠ byteAddr a i) : (m.writeWord a v).readByte k = m.readByte k := by
  have h0 := hm
  have h1 := Memory.writeByte_wf h0 (byteAddr_lt a 0) (byteOfWord v 0)
  have h2 := Memory.writeByte_wf h1 (byteAddr_lt a 1) (byteOfWord v 1)
  have h3 := Memory.writeByte_wf h2 (byteAddr_lt a 2) (byteOfWord v 2)
  unfold Memory.writeWord
  simp [Memory.readByte_writeByte h3.1, Memory.readByte_writeByte h2.1, Memory.readByte_writeByte h1.1,
    Memory.readByte_writeByte h0.1, hk 0, hk 1, hk 2, hk 3]

/-- Writing a word leaves every other word as it was. -/
theorem Memory.readWord_writeWord_of_ne {m : Memory} (hm : m.wf) {a b : Word} (ha : isWordAddress a = true)
    (hb : isWordAddress b = true) (hab : a ≠ b) (v : Word) : (m.writeWord a v).readWord b = m.readWord b := by
  have na : a.toNat ≠ b.toNat := fun h => hab (BitVec.eq_of_toNat_eq h)
  have ma := toNat_mod_four ha
  have mb := toNat_mod_four hb
  have d : ∀ j < 4, ∀ i < 4, byteAddr b j ≠ byteAddr a i := by
    intro j hj i hi
    rw [byteAddr_of_aligned ha hi, byteAddr_of_aligned hb hj]
    omega
  unfold Memory.readWord
  rw [Memory.readByte_writeWord_of_ne hm v (d 0 (by omega)), Memory.readByte_writeWord_of_ne hm v (d 1 (by omega)),
    Memory.readByte_writeWord_of_ne hm v (d 2 (by omega)), Memory.readByte_writeWord_of_ne hm v (d 3 (by omega))]

end Sys2Proof.Machine
end

