-- ==== Sys2Proof/Laws/Registers.lean ====
section
/-! SUPPORT. Reading after writing a bank and the RegisterFile. -/

namespace Sys2Proof.Machine

@[simp] theorem bankSet_zero (b : Bank) (v : Word) : bankSet b 0#5 v = b := by simp [bankSet]

theorem bankGet_bankSet (b : Bank) (r q : RegIdx) (v : Word) :
    bankGet (bankSet b r v) q = if q = r ∧ r ≠ 0#5 then v else bankGet b q := by
  by_cases hr : r = 0#5
  · subst hr
    rw [bankSet_zero, if_neg fun h => h.2 rfl]
  · have set : bankSet b r v = b.set r.toNat v r.isLt := if_neg hr
    rw [set, bankGet, bankGet, Vector.getElem_set]
    by_cases hq : q = r
    · rw [if_pos (congrArg BitVec.toNat hq.symm), if_pos ⟨hq, hr⟩]
    · rw [if_neg fun h => hq (BitVec.eq_of_toNat_eq h.symm), if_neg fun h => hq h.1]

@[simp] theorem bankGet_bankSet_at_zero (b : Bank) (r : RegIdx) (v : Word) : bankGet (bankSet b r v) 0#5 = bankGet b 0#5 := by
  rw [bankGet_bankSet]
  exact if_neg fun h => h.2 h.1.symm

@[simp] theorem archReg_zero (b : Bank) : archReg b 0#5 = 0#32 := by simp [archReg]

/-- A register as an instruction sees it after a write to a bank. -/
theorem archReg_bankSet (b : Bank) (r q : RegIdx) (v : Word) :
    archReg (bankSet b r v) q = if q = r ∧ r ≠ 0#5 then v else archReg b q := by
  unfold archReg
  by_cases hq : q = 0#5
  · subst hq
    simp only [if_pos]
    exact (if_neg fun h => h.2 h.1.symm).symm
  · simp only [if_neg hq, bankGet_bankSet]

@[simp] theorem RegFile.readPort_zero (f : RegFile) : f.readPort 0#5 = 0#32 := by simp [RegFile.readPort]

theorem RegFile.readPort_eq_archReg (f : RegFile) (r : RegIdx) : f.readPort r = archReg f.committed r := rfl

@[simp] theorem RegFile.writePort_committed (f : RegFile) (r : RegIdx) (v : Word) :
    (f.writePort r v).committed = f.committed := rfl

@[simp] theorem RegFile.writePort_pending (f : RegFile) (r : RegIdx) (v : Word) :
    (f.writePort r v).pending = bankSet f.pending r v := rfl

@[simp] theorem RegFile.clock_committed (f : RegFile) : f.clock.committed = f.pending := rfl

@[simp] theorem RegFile.clock_pending (f : RegFile) : f.clock.pending = f.pending := rfl

/-- Two banks that read alike are the same bank. -/
theorem bank_ext {b c : Bank} (h : ∀ r : RegIdx, bankGet b r = bankGet c r) : b = c := by
  apply Vector.ext
  intro i hi
  have := h (BitVec.ofNat 5 i)
  simpa [bankGet, BitVec.toNat_ofNat, Nat.mod_eq_of_lt hi] using this

end Sys2Proof.Machine
end

