-- ==== Sys2Proof/Laws/State.lean ====
section
/-! SUPPORT. What each update of the state leaves in each field, one lemma per field per update. -/

namespace Sys2Proof.Machine

/-! ### `State.raise` -/

variable (s : State) (e : StageError) (v : Option RawFields) (w : Word) (p : Params)

@[simp] theorem State.raise_pc : (s.raise e).pc = s.pc := rfl
@[simp] theorem State.raise_regs : (s.raise e).regs = s.regs := rfl
@[simp] theorem State.raise_imem : (s.raise e).imem = s.imem := rfl
@[simp] theorem State.raise_dmem : (s.raise e).dmem = s.dmem := rfl
@[simp] theorem State.raise_ifid : (s.raise e).ifid = s.ifid := rfl
@[simp] theorem State.raise_idex : (s.raise e).idex = s.idex := rfl
@[simp] theorem State.raise_exmem : (s.raise e).exmem = s.exmem := rfl
@[simp] theorem State.raise_memwb : (s.raise e).memwb = s.memwb := rfl
@[simp] theorem State.raise_nextInstNo : (s.raise e).nextInstNo = s.nextInstNo := rfl
@[simp] theorem State.raise_fetchStopped : (s.raise e).fetchStopped = s.fetchStopped := rfl
@[simp] theorem State.raise_halted : (s.raise e).halted = s.halted := rfl
@[simp] theorem State.raise_fault : (s.raise e).fault = some ⟨e.error, e.instNo, s.cycles + 1⟩ := rfl
@[simp] theorem State.raise_cycles : (s.raise e).cycles = s.cycles := rfl

/-! ### `State.commit` -/

@[simp] theorem State.commit_pc : (s.commit v).pc = pcNext v s := rfl
@[simp] theorem State.commit_regs : (s.commit v).regs = regsNext s := rfl
@[simp] theorem State.commit_imem : (s.commit v).imem = s.imem := rfl
@[simp] theorem State.commit_dmem : (s.commit v).dmem = dmemNext s := rfl
@[simp] theorem State.commit_ifid : (s.commit v).ifid = ifidNext v s := rfl
@[simp] theorem State.commit_idex : (s.commit v).idex = idexNext v s := rfl
@[simp] theorem State.commit_exmem : (s.commit v).exmem = exmemNext s := rfl
@[simp] theorem State.commit_memwb : (s.commit v).memwb = memwbNext s := rfl
@[simp] theorem State.commit_nextInstNo : (s.commit v).nextInstNo = instNoNext v s := rfl
@[simp] theorem State.commit_fetchStopped : (s.commit v).fetchStopped = fetchStoppedNext v s := rfl
@[simp] theorem State.commit_halted : (s.commit v).halted = haltedNext s := rfl
@[simp] theorem State.commit_fault : (s.commit v).fault = s.fault := rfl
@[simp] theorem State.commit_cycles : (s.commit v).cycles = s.cycles + 1 := rfl

/-! ### `State.placeInDecode` -/

@[simp] theorem State.placeInDecode_pc : (s.placeInDecode w).pc = s.pc + Config.pcStep := rfl
@[simp] theorem State.placeInDecode_regs : (s.placeInDecode w).regs = s.regs := rfl
@[simp] theorem State.placeInDecode_imem : (s.placeInDecode w).imem = s.imem.writeWord s.pc w := rfl
@[simp] theorem State.placeInDecode_dmem : (s.placeInDecode w).dmem = s.dmem := rfl
@[simp] theorem State.placeInDecode_ifid : (s.placeInDecode w).ifid = ⟨s.nextInstNo, w, s.pc⟩ := rfl
@[simp] theorem State.placeInDecode_idex : (s.placeInDecode w).idex = s.idex := rfl
@[simp] theorem State.placeInDecode_exmem : (s.placeInDecode w).exmem = s.exmem := rfl
@[simp] theorem State.placeInDecode_memwb : (s.placeInDecode w).memwb = s.memwb := rfl
@[simp] theorem State.placeInDecode_nextInstNo : (s.placeInDecode w).nextInstNo = s.nextInstNo + 1 := rfl
@[simp] theorem State.placeInDecode_fetchStopped : (s.placeInDecode w).fetchStopped = s.fetchStopped := rfl
@[simp] theorem State.placeInDecode_halted : (s.placeInDecode w).halted = s.halted := rfl
@[simp] theorem State.placeInDecode_fault : (s.placeInDecode w).fault = s.fault := rfl
@[simp] theorem State.placeInDecode_cycles : (s.placeInDecode w).cycles = s.cycles + 1 := rfl

/-! ### `State.resetWith` -/

@[simp] theorem State.resetWith_pc : (State.resetWith p).pc = p.resetPc := rfl
@[simp] theorem State.resetWith_regs : (State.resetWith p).regs = RegFile.ofInit p.initRegs := rfl
@[simp] theorem State.resetWith_imem : (State.resetWith p).imem = Memory.ofImage p.imemImage := rfl
@[simp] theorem State.resetWith_dmem : (State.resetWith p).dmem = Memory.ofImage p.dmemImage := rfl
@[simp] theorem State.resetWith_ifid : (State.resetWith p).ifid = IfId.bubble := rfl
@[simp] theorem State.resetWith_idex : (State.resetWith p).idex = IdEx.bubble := rfl
@[simp] theorem State.resetWith_exmem : (State.resetWith p).exmem = ExMem.bubble := rfl
@[simp] theorem State.resetWith_memwb : (State.resetWith p).memwb = MemWb.bubble := rfl
@[simp] theorem State.resetWith_nextInstNo : (State.resetWith p).nextInstNo = Config.instNoFirst := rfl
@[simp] theorem State.resetWith_fetchStopped : (State.resetWith p).fetchStopped = false := rfl
@[simp] theorem State.resetWith_halted : (State.resetWith p).halted = false := rfl
@[simp] theorem State.resetWith_fault : (State.resetWith p).fault = none := rfl
@[simp] theorem State.resetWith_cycles : (State.resetWith p).cycles = 0 := rfl

end Sys2Proof.Machine
end

