-- ==== Sys2Proof/Laws/Cycle.lean ====
section
/-! SUPPORT. What one cycle can do, said once for each shared operation: the Decode check, the clock cycle, the meanings
and the step, and what empty latches become. -/

namespace Sys2Proof.Machine

/-! ### The Decode stage's check -/

@[simp] theorem Opcode.ofCode_code (o : Opcode) : Opcode.ofCode o.code = some o := by cases o <;> decide

@[simp] theorem AluOp.ofCode_code (o : AluOp) : AluOp.ofCode o.code = some o := by cases o <;> decide

/-- No index is bad exactly when all three are below 32. -/
theorem badIndex_eq_none {f : RawFields} : f.badIndex = none ↔ f.src1Reg ≤ 31 ∧ f.src2Reg ≤ 31 ∧ f.destReg ≤ 31 := by
  simp [RawFields.badIndex]

/-- The check passes a record of enum members and 5-bit indices through. -/
theorem checkFields_ok (word : Word) (o : Opcode) (a : AluOp) {r1 r2 rd : Nat} (imm : Word) (h1 : r1 ≤ 31) (h2 : r2 ≤ 31)
    (hd : rd ≤ 31) : checkFields word (some ⟨o.code, a.code, r1, r2, rd, imm⟩) =
      .ok ⟨o, a, BitVec.ofNat 5 r1, BitVec.ofNat 5 r2, BitVec.ofNat 5 rd, imm⟩ := by
  have hb : RawFields.badIndex ⟨o.code, a.code, r1, r2, rd, imm⟩ = none := badIndex_eq_none.mpr ⟨h1, h2, hd⟩
  simp [checkFields, hb]

/-- The check reports the first bad index of a record of enum members. -/
theorem checkFields_badIndex (word : Word) (o : Opcode) (a : AluOp) {r1 r2 rd r : Nat} {imm : Word}
    (hb : RawFields.badIndex ⟨o.code, a.code, r1, r2, rd, imm⟩ = some r) :
    checkFields word (some ⟨o.code, a.code, r1, r2, rd, imm⟩) = .error (.outOfRange r) := by
  simp [checkFields, hb]

@[simp] theorem checkFields_none (word : Word) : checkFields word none = .error (.unknownOpcode word) := rfl

/-- The zero word's record checks to the all-zero record (R91 (a)). -/
@[simp] theorem checkFields_nop (word : Word) : checkFields word (some (fieldsN .nop)) = .ok Decoded.zero :=
  checkFields_ok word .nop .none 0 (by omega) (by omega) (by omega)

@[simp] theorem refdec_zero : refdec 0#32 = some (fieldsN .nop) := by decide

/-! ### The clock cycle -/

/-- The three things a cycle can be: nothing on a frozen machine, an error, or a clock edge. -/
theorem clockCycle_cases (v : Option RawFields) (s : State) :
    (s.frozen = true ∧ clockCycle v s = s) ∨
    (∃ e, s.frozen = false ∧ cycleError v s = some e ∧ clockCycle v s = s.raise e) ∨
    (s.frozen = false ∧ cycleError v s = none ∧ clockCycle v s = s.commit v) := by
  unfold clockCycle
  cases hf : s.frozen with
  | true => exact .inl ⟨rfl, if_pos rfl⟩
  | false =>
    cases he : cycleError v s with
    | some e => exact .inr (.inl ⟨e, rfl, rfl, by simp⟩)
    | none => exact .inr (.inr ⟨rfl, rfl, by simp⟩)

theorem clockCycle_frozen {v : Option RawFields} {s : State} (h : s.frozen = true) : clockCycle v s = s := by
  simp [clockCycle, h]

theorem clockCycle_error {v : Option RawFields} {s : State} {e : StageError} (h : s.frozen = false)
    (he : cycleError v s = some e) : clockCycle v s = s.raise e := by
  simp [clockCycle, h, he]

theorem clockCycle_commit {v : Option RawFields} {s : State} (h : s.commits v = true) : clockCycle v s = s.commit v := by
  simp only [State.commits, Bool.and_eq_true, Bool.not_eq_true', Option.isNone_iff_eq_none] at h
  simp [clockCycle, h.1, h.2]

/-- A cycle of a running machine that leaves no fault was a clock edge. -/
theorem clockCycle_of_no_fault {v : Option RawFields} {s : State} (hs : s.frozen = false)
    (ht : (clockCycle v s).fault = none) : clockCycle v s = s.commit v ∧ cycleError v s = none := by
  rcases clockCycle_cases v s with ⟨h, -⟩ | ⟨e, -, -, h⟩ | ⟨-, h', h⟩
  · rw [hs] at h; cases h
  · rw [h] at ht; cases ht
  · exact ⟨h, h'⟩

/-- No stage reports an error exactly when none of the three does. -/
theorem cycleError_eq_none {v : Option RawFields} {s : State} :
    cycleError v s = none ↔ memError s = none ∧ decodeError v s = none ∧ fetchError v s = none := by
  unfold cycleError
  cases memError s <;> cases decodeError v s <;> simp

/-- Each meaning is one clock cycle, with the same record in every state. -/
theorem exec_is_cycle (i : Instr) : ∃ f, ∀ s, exec i s = .next (clockCycle (some f) s) := by
  cases i <;> exact ⟨_, fun _ => rfl⟩

/-- A step is one clock cycle. -/
theorem step_is_cycle (s : State) : ∃ v, step s = .next (clockCycle v s) := by
  unfold step
  split
  · next i _ =>
    obtain ⟨f, hf⟩ := exec_is_cycle i
    exact ⟨some f, hf s⟩
  · exact ⟨none, rfl⟩

/-- A step never ends in a fault or a refusal of the interface: errors are states (R274). -/
theorem step_answers_next (s : State) : ∃ t, step s = .next t :=
  let ⟨v, h⟩ := step_is_cycle s
  ⟨clockCycle v s, h⟩

/-! ### Runs -/

theorem run_zero (s : State) : core.run 0 s = .next s := rfl

theorem run_succ_of_step (n : Nat) {s t : State} (h : step s = .next t) : core.run (n + 1) s = core.run n t := by
  have h' : core.step s = .next t := h
  simp only [Host.Core.run, h']

theorem run_succ_clock (n : Nat) (s : State) : ∃ v, core.run (n + 1) s = core.run n (clockCycle v s) :=
  let ⟨v, h⟩ := step_is_cycle s
  ⟨v, run_succ_of_step n h⟩

/-! ### Writeback -/

theorem wbWrite_eq_some {s : State} {r : RegIdx} {x : Word} (h : wbWrite s = some (r, x)) :
    produces s.memwb.opcode s.memwb.destReg = true ∧ r = s.memwb.destReg ∧ x = s.memwb.result := by
  unfold wbWrite at h
  split at h
  · next hp => cases h; exact ⟨hp, rfl, rfl⟩
  · cases h

theorem produces_ne_zero {o : Opcode} {r : RegIdx} (h : produces o r = true) : r ≠ 0#5 := by
  simp only [produces, Bool.and_eq_true, bne_iff_ne] at h
  exact h.2

@[simp] theorem produces_zero (o : Opcode) : produces o 0#5 = false := by simp [produces]

/-- Both banks after the clock edge are the pending bank with this cycle's write. -/
theorem regsNext_eq (s : State) :
    regsNext s =
      if produces s.memwb.opcode s.memwb.destReg then
        ⟨bankSet s.regs.pending s.memwb.destReg s.memwb.result, bankSet s.regs.pending s.memwb.destReg s.memwb.result⟩
      else ⟨s.regs.pending, s.regs.pending⟩ := by
  unfold regsNext wbWrite
  cases produces s.memwb.opcode s.memwb.destReg <;> rfl

/-- The banks agree after every clock edge. -/
theorem regsNext_pending (s : State) : (regsNext s).pending = (regsNext s).committed := by
  rw [regsNext_eq]; split <;> rfl

/-- With the banks agreeing before, the clock edge completes the instruction in Writeback. -/
theorem regsNext_committed {s : State} (h : s.regs.pending = s.regs.committed) :
    (regsNext s).committed = s.regsAfterWb := by
  rw [regsNext_eq, State.regsAfterWb, h]; split <;> rfl

/-- The operand latched by Decode is the register as the clock edge leaves it (R246, R247). -/
theorem bypass_eq (s : State) (r : RegIdx) : bypass s r true = archReg s.regsAfterWb r := by
  unfold bypass State.regsAfterWb wbWrite
  by_cases hr : r = 0#5
  · subst hr; simp
  · have needed : (true && r != 0#5) = true := by simpa using hr
    rw [if_pos needed]
    cases hp : produces s.memwb.opcode s.memwb.destReg with
    | false => simp [RegFile.readPort_eq_archReg]
    | true =>
      simp only [if_true, archReg_bankSet, RegFile.readPort_eq_archReg]
      by_cases hd : s.memwb.destReg = r
      · rw [if_pos hd, if_pos ⟨hd.symm, produces_ne_zero hp⟩]
      · rw [if_neg hd, if_neg fun h => hd h.1.symm]

/-! ### Empty latches -/

@[simp] theorem IdEx.bubble_opcode : IdEx.bubble.opcode = .nop := rfl
@[simp] theorem IdEx.bubble_destReg : IdEx.bubble.destReg = 0#5 := rfl
@[simp] theorem IdEx.bubble_pc : IdEx.bubble.pc = 0#32 := rfl
@[simp] theorem ExMem.bubble_opcode : ExMem.bubble.opcode = .nop := rfl
@[simp] theorem ExMem.bubble_destReg : ExMem.bubble.destReg = 0#5 := rfl
@[simp] theorem MemWb.bubble_opcode : MemWb.bubble.opcode = .nop := rfl
@[simp] theorem MemWb.bubble_destReg : MemWb.bubble.destReg = 0#5 := rfl
@[simp] theorem IfId.bubble_instruction : IfId.bubble.instruction = 0#32 := rfl
@[simp] theorem IfId.bubble_pc : IfId.bubble.pc = 0#32 := rfl

/-- A bubble in Execute raises no flush. -/
theorem flushSignal_of_not_branch {s : State} (h : s.idex.opcode.isBranch = false) : flushSignal s = false := by
  unfold flushSignal branchTaken
  cases ho : s.idex.opcode <;> simp_all [Opcode.isBranch]

/-- A flush comes from a branch. -/
theorem isBranch_of_flushSignal {s : State} (h : flushSignal s = true) : s.idex.opcode.isBranch = true := by
  cases hb : s.idex.opcode.isBranch with
  | true => rfl
  | false => rw [flushSignal_of_not_branch hb] at h; cases h

/-- A bubble in Execute becomes a bubble in Memory (R202). -/
theorem exmemNext_bubble {s : State} (h : s.idex = IdEx.bubble) : exmemNext s = ExMem.bubble := by
  simp [exmemNext, operandB, forward, h, IdEx.bubble, ExMem.bubble, Opcode.uses2, alu]

/-- A bubble in Memory becomes a bubble in Writeback (R206). -/
theorem memwbNext_bubble {s : State} (h : s.exmem = ExMem.bubble) : memwbNext s = MemWb.bubble := by
  simp [memwbNext, memResult, h, ExMem.bubble, MemWb.bubble, Opcode.isLoad]

/-- A bubble in Decode becomes a bubble in Execute (R194), whatever the stall and flush signals are. -/
theorem idexNext_bubble {s : State} (h : s.ifid = IfId.bubble) (f : RawFields) (hf : f = fieldsN .nop) :
    idexNext (some f) s = IdEx.bubble := by
  subst hf
  unfold idexNext
  split
  · rfl
  split
  · rfl
  simp [decodeResult, issued, h, IfId.bubble, Decoded.zero, bypass, IdEx.bubble]

/-- The rows of R186 are told apart by the three signals. -/
theorem fetchRow_cases (v : Option RawFields) (s : State) :
    (fetchRow v s = .flush ∧ flushSignal s = true) ∨
    (fetchRow v s = .stall ∧ flushSignal s = false ∧ stallSignal v s = true) ∨
    (fetchRow v s = .stop ∧ flushSignal s = false ∧ stallSignal v s = false ∧
      (s.fetchStopped = true ∨ haltDec v s = true)) ∨
    (fetchRow v s = .normal ∧ flushSignal s = false ∧ stallSignal v s = false ∧ s.fetchStopped = false ∧
      haltDec v s = false) := by
  unfold fetchRow
  cases flushSignal s <;> cases stallSignal v s <;> cases s.fetchStopped <;> cases haltDec v s <;> simp

end Sys2Proof.Machine
end

