-- ==== Sys2Proof/Laws/PerInstr.lean ====
section
/-! SUPPORT. One statement about each instruction as syntax: it is one 32-bit word (R95), four bytes that read back as the
word. -/

namespace Sys2Proof.Laws.OneWord

/-- The instruction's bytes are four, and they are the word's (R95, R66). -/
def Statement (i : Instr) : Prop := ∃ b0 b1 b2 b3, encodeBytes i = [b0, b1, b2, b3] ∧ wordOfBytes b0 b1 b2 b3 = encode i

theorem of_word (i : Instr) : Statement i := ⟨_, _, _, _, rfl, Machine.wordOfBytes_byteOfWord (encode i)⟩

theorem nop : Statement .nop := of_word _
theorem add (rd rs rt : Nat) : Statement (.add rd rs rt) := of_word _
theorem sub (rd rs rt : Nat) : Statement (.sub rd rs rt) := of_word _
theorem and (rd rs rt : Nat) : Statement (.and rd rs rt) := of_word _
theorem or (rd rs rt : Nat) : Statement (.or rd rs rt) := of_word _
theorem xor (rd rs rt : Nat) : Statement (.xor rd rs rt) := of_word _
theorem slt (rd rs rt : Nat) : Statement (.slt rd rs rt) := of_word _
theorem addi (rt rs : Nat) (imm : BitVec 16) : Statement (.addi rt rs imm) := of_word _
theorem lw (rt : Nat) (imm : BitVec 16) (rs : Nat) : Statement (.lw rt imm rs) := of_word _
theorem sw (rt : Nat) (imm : BitVec 16) (rs : Nat) : Statement (.sw rt imm rs) := of_word _
theorem beq (rs rt : Nat) (off : BitVec 16) : Statement (.beq rs rt off) := of_word _
theorem bne (rs rt : Nat) (off : BitVec 16) : Statement (.bne rs rt off) := of_word _
theorem halt : Statement .halt := of_word _

end Sys2Proof.Laws.OneWord
end

