-- ==== Sys2Proof/Laws/Sequential.lean ====
section
/-! SUPPORT. What the primitives and one step of the sequential reference machine can do, and counting cycles. -/

namespace Sys2Proof.Machine

/-! ### Updates of the architectural state -/

variable (a : ArchState) (r : RegIdx) (v : Word)

@[simp] theorem ArchState.advance_pc : a.advance.pc = a.pc + 4 := rfl
@[simp] theorem ArchState.advance_regs : a.advance.regs = a.regs := rfl
@[simp] theorem ArchState.advance_dmem : a.advance.dmem = a.dmem := rfl
@[simp] theorem ArchState.write_pc : (a.write r v).pc = a.pc + 4 := rfl
@[simp] theorem ArchState.write_regs : (a.write r v).regs = bankSet a.regs r v := rfl
@[simp] theorem ArchState.write_dmem : (a.write r v).dmem = a.dmem := rfl
@[simp] theorem ArchState.read_zero : a.read 0#5 = 0#32 := archReg_zero a.regs

/-- A register after a write: the value written, unless it is another register or register 0. -/
theorem ArchState.read_write (q : RegIdx) : (a.write r v).read q = if q = r ∧ r ≠ 0#5 then v else a.read q :=
  archReg_bankSet a.regs r q v

/-- A write to register 0 only advances the `pc`. -/
@[simp] theorem ArchState.write_zero : a.write 0#5 v = a.advance := by simp [ArchState.write, ArchState.advance]

/-! ### One step -/

/-- The two things a load can come to. -/
theorem archLoad_cases (dest : RegIdx) (ea : Word) :
    (isWordAddress ea = true ∧ archLoad dest ea a = .next (a.write dest (a.dmem.readWord ea))) ∨
    (isWordAddress ea = false ∧ archLoad dest ea a = .error (.misalignedAccess ea)) := by
  cases h : isWordAddress ea <;> simp [archLoad, h]

/-- The two things a store can come to. -/
theorem archStore_cases (ea data : Word) :
    (isWordAddress ea = true ∧
      archStore ea data a = .next { a with dmem := a.dmem.writeWord ea data, pc := a.pc + 4 }) ∨
    (isWordAddress ea = false ∧ archStore ea data a = .error (.misalignedAccess ea)) := by
  cases h : isWordAddress ea <;> simp [archStore, h]

/-- The one error an effect can end in. -/
theorem seqEffect_error {d : Decoded} {a : ArchState} {e : Fault} (h : seqEffect d a = .error e) :
    (d.opcode = .lw ∨ d.opcode = .sw) ∧
      e = .misalignedAccess (alu d.aluOp (a.read d.src1Reg) d.immediate) ∧
      isWordAddress (alu d.aluOp (a.read d.src1Reg) d.immediate) = false := by
  unfold seqEffect at h
  split at h <;> first | cases h | skip
  · next ho =>
    rcases archLoad_cases a d.destReg (alu d.aluOp (a.read d.src1Reg) d.immediate) with ⟨-, hl⟩ | ⟨hw, hl⟩
    · rw [hl] at h; cases h
    · rw [hl] at h; cases h; exact ⟨.inl ho, rfl, hw⟩
  · next ho =>
    rcases archStore_cases a (alu d.aluOp (a.read d.src1Reg) d.immediate) (a.read d.src2Reg) with ⟨-, hl⟩ | ⟨hw, hl⟩
    · rw [hl] at h; cases h
    · rw [hl] at h; cases h; exact ⟨.inr ho, rfl, hw⟩

/-- A word with a checked record takes that record's effect. -/
theorem seqStep_of_ok {dec : Decoder} {imem : Memory} {a : ArchState} {d : Decoded} (h : seqDecode dec imem a = .ok d) :
    seqStep dec imem a = seqEffect d a := by simp only [seqStep, h]

/-- A word without one stops with the check's error. -/
theorem seqStep_of_error {dec : Decoder} {imem : Memory} {a : ArchState} {e : Fault}
    (h : seqDecode dec imem a = .error e) : seqStep dec imem a = .error e := by simp only [seqStep, h]

/-- A word the decoder does not know stops with `UnknownOpcode` (R217). -/
theorem seqDecode_unknown {dec : Decoder} {imem : Memory} {a : ArchState} (h : dec (imem.readWord a.pc) = none) :
    seqDecode dec imem a = .error (.unknownOpcode (imem.readWord a.pc)) := by rw [seqDecode, h, checkFields_none]

/-! ### Counting cycles -/

@[simp] theorem cyclesWith_zero (dec : Decoder) (s : State) : cyclesWith dec 0 s = s := rfl
@[simp] theorem cyclesWith_succ (dec : Decoder) (n : Nat) (s : State) :
    cyclesWith dec (n + 1) s = cyclesWith dec n (cycleWith dec s) := rfl

/-- Cycles add up. -/
theorem cyclesWith_add (dec : Decoder) (m n : Nat) (s : State) :
    cyclesWith dec (m + n) s = cyclesWith dec n (cyclesWith dec m s) := by
  induction m generalizing s with
  | zero => simp
  | succ m ih => rw [Nat.succ_add]; exact ih _

end Sys2Proof.Machine
end

