-- ==== Sys2Proof/Machine/Assembly.lean ====
section
/-! DEFINITION. The assembler syntax of rule R113, in the one direction the spec uses it: writing an instruction down. -/

namespace Sys2Proof.Machine

/-- `r0` to `r31` (R113). -/
def regName (r : Nat) : String := "r" ++ Nat.repr r

/-- A 16-bit immediate or offset as a signed decimal integer (R113). -/
def immText (imm : BitVec 16) : String := if imm.msb then "-" ++ Nat.repr imm.toInt.natAbs else Nat.repr imm.toNat

/-- `MNEMONIC rd, rs, rt`. -/
def asmR (mnemonic : String) (rd rs rt : Nat) : String :=
  mnemonic ++ " " ++ regName rd ++ ", " ++ regName rs ++ ", " ++ regName rt

/-- `MNEMONIC rt, imm(rs)`. -/
def asmMem (mnemonic : String) (rt : Nat) (imm : BitVec 16) (rs : Nat) : String :=
  mnemonic ++ " " ++ regName rt ++ ", " ++ immText imm ++ "(" ++ regName rs ++ ")"

/-- `MNEMONIC r, r, imm`. -/
def asmI (mnemonic : String) (first second : Nat) (imm : BitVec 16) : String :=
  mnemonic ++ " " ++ regName first ++ ", " ++ regName second ++ ", " ++ immText imm

/-- An instruction in the syntax of R113. -/
def asmText : Instr → String
  | .nop => "NOP"
  | .add rd rs rt => asmR "ADD" rd rs rt
  | .sub rd rs rt => asmR "SUB" rd rs rt
  | .and rd rs rt => asmR "AND" rd rs rt
  | .or rd rs rt => asmR "OR" rd rs rt
  | .xor rd rs rt => asmR "XOR" rd rs rt
  | .slt rd rs rt => asmR "SLT" rd rs rt
  | .addi rt rs imm => asmI "ADDI" rt rs imm
  | .lw rt imm rs => asmMem "LW" rt imm rs
  | .sw rt imm rs => asmMem "SW" rt imm rs
  | .beq rs rt off => asmI "BEQ" rs rt off
  | .bne rs rt off => asmI "BNE" rs rt off
  | .halt => "HALT"

end Sys2Proof.Machine
end

