-- ==== Sys2Proof/Tests/Slice0.lean ====
section
/-! SUPPORT. The model's own tests, with expected values taken from the spec's tables and traces (95_test_vectors.md) and
from words written out bit by bit from its formats, and for each statement with hypotheses a state that meets them. -/

namespace Sys2Proof.Tests

open Sys2Proof.Machine

/-! ### Well-formedness: each check refuses an ill-formed term -/

theorem test_wellFormed_accepts : Instr.wellFormed (.slt 31 31 31) = true := by decide
theorem test_wellFormed_rd : Instr.wellFormed (.add 32 0 0) = false := by decide
theorem test_wellFormed_rs : Instr.wellFormed (.sub 0 32 0) = false := by decide
theorem test_wellFormed_rt : Instr.wellFormed (.and 0 0 32) = false := by decide
theorem test_wellFormed_addi_dest : Instr.wellFormed (.addi 32 0 0) = false := by decide
theorem test_wellFormed_lw_base : Instr.wellFormed (.lw 0 0 32) = false := by decide
theorem test_wellFormed_sw_data : Instr.wellFormed (.sw 32 0 0) = false := by decide
theorem test_wellFormed_bne : Instr.wellFormed (.bne 0 40 0) = false := by decide
theorem test_params_resetPc : Params.wellFormed { Params.default with resetPc := 2 } = false := by decide
theorem test_params_imem : Params.wellFormed { Params.default with imemImage := [(1, 0)] } = false := by decide
theorem test_params_dmem : Params.wellFormed { Params.default with dmemImage := [(4, 0), (7, 0)] } = false := by decide
theorem test_params_default : Params.default.wellFormed = true := by decide

/-! ### Decoding: words written out from R96 to R98 as op, rs, rt, rd, zero, funct or op, rs, rt, imm16 -/

theorem test_decode_nop : decodeWord 0b00000000000000000000000000000000 = .ok .nop := by decide
theorem test_decode_add : decodeWord 0b000001_00010_00011_00001_00000_000001 = .ok (.add 1 2 3) := by decide
theorem test_decode_sub : decodeWord 0b000001_00010_00011_00001_00000_000010 = .ok (.sub 1 2 3) := by decide
theorem test_decode_and : decodeWord 0b000001_00010_00011_00001_00000_000011 = .ok (.and 1 2 3) := by decide
theorem test_decode_or : decodeWord 0b000001_00010_00011_00001_00000_000100 = .ok (.or 1 2 3) := by decide
theorem test_decode_xor : decodeWord 0b000001_00010_00011_00001_00000_000101 = .ok (.xor 1 2 3) := by decide
theorem test_decode_slt : decodeWord 0b000001_11111_11110_11101_00000_000110 = .ok (.slt 29 31 30) := by decide
theorem test_decode_addi : decodeWord 0b000010_00001_00101_1000000000000000 = .ok (.addi 5 1 0x8000) := by decide
theorem test_decode_lw : decodeWord 0b000011_01000_00111_1111111111111100 = .ok (.lw 7 0xFFFC 8) := by decide
theorem test_decode_sw : decodeWord 0b000100_01010_01001_0000000000001000 = .ok (.sw 9 8 10) := by decide
theorem test_decode_beq : decodeWord 0b000101_00001_00010_1111111111111111 = .ok (.beq 1 2 0xFFFF) := by decide
theorem test_decode_bne : decodeWord 0b000110_00011_00100_0111111111111111 = .ok (.bne 3 4 0x7FFF) := by decide
theorem test_decode_halt : decodeWord 0b11111100000000000000000000000000 = .ok .halt := by decide

/-- A word no decoder of the model gives a meaning. -/
def Rejected (w : Word) : Prop := decodeWord w = .error (.unknownOpcode w) ∧ refdec w = none

/-! The words 95_test_vectors.md section 2.1 lists as `UnknownOpcode`: each clause of R116 at its edges. -/

theorem test_unknown_op0 : Rejected 0x00000001 := by unfold Rejected; decide
theorem test_unknown_funct : Rejected 0x04430800 ∧ Rejected 0x04430807 := by unfold Rejected; decide
theorem test_unknown_zero : Rejected 0x04430841 ∧ Rejected 0x0443083F := by unfold Rejected; decide
theorem test_unknown_op : Rejected 0x1C000000 ∧ Rejected 0xF8000000 := by unfold Rejected; decide
theorem test_unknown_op3F : Rejected 0xFC000001 ∧ Rejected 0xFFFFFFFF := by unfold Rejected; decide

/-- The legal neighbours of those edges: funct 6 and op 6. -/
theorem test_decode_edges : (decodeWord 0x04430806).isOk = true ∧ (decodeWord 0x18000000).isOk = true := by decide

/-- The decoded fields of 95_test_vectors.md section 2.1, for `LW r7, -4(r8)` and `SW r9, 8(r10)`. -/
theorem test_refdec_fields :
    refdec 0x0D07FFFC = some ⟨0x03, 0x01, 8, 0, 7, 0xFFFFFFFC⟩ ∧ refdec 0x11490008 = some ⟨0x04, 0x01, 10, 9, 0, 8⟩ := by
  decide

/-- No word matches two rows of the opcode map: two patterns differ on a bit both masks look at. -/
theorem test_rows_disjoint :
    opcodeTable.Pairwise fun r q => r.pattern &&& (r.mask &&& q.mask) ≠ q.pattern &&& (r.mask &&& q.mask) := by decide

/-- The rows' names in `spec/opcode_table.json`'s order. -/
theorem test_rows_named : opcodeTable.map OpcodeRow.mnemonic =
    ["NOP", "ADD", "SUB", "AND", "OR", "XOR", "SLT", "ADDI", "LW", "SW", "BEQ", "BNE", "HALT"] := by decide

theorem test_decode_bytes :
    decodeBytes [0x01, 0x08, 0x43, 0x04, 0xAA] = .ok (.add 1 2 3, [0xAA]) ∧
    decodeBytes [0x01, 0x08, 0x43] = .error (.truncated 3) := by decide

theorem test_decode_table_word :
    decodeTableWord 32 0x04430801 = some (.add 1 2 3) ∧ decodeTableWord 32 0x1C000000 = none := by decide

/-- R113's own examples. -/
theorem test_asm : asmText (.add 1 2 3) = "ADD r1, r2, r3" ∧ asmText (.lw 1 0 2) = "LW r1, 0(r2)" ∧
    asmText (.bne 1 0 0xFFFD) = "BNE r1, r0, -3" := by decide

/-! ### The ALU and the address adders: the tables of sections 2.2 to 2.4 -/

/-- The six operations on one pair of operands, in the order of R130's table. -/
def aluRow (a b : Word) : List Word := [AluOp.add, .sub, .and, .or, .xor, .slt].map (alu · a b)

theorem test_alu_row1 : aluRow 0x00000005 0x00000007 = [0x0000000C, 0xFFFFFFFE, 5, 7, 2, 1] := by decide
theorem test_alu_row2 : aluRow 0x7FFFFFFF 1 = [0x80000000, 0x7FFFFFFE, 1, 0x7FFFFFFF, 0x7FFFFFFE, 0] := by decide
theorem test_alu_row3 : aluRow 0xFFFFFFFF 1 = [0, 0xFFFFFFFE, 1, 0xFFFFFFFF, 0xFFFFFFFE, 1] := by decide
theorem test_alu_row4 : aluRow 0x80000000 0x7FFFFFFF = [0xFFFFFFFF, 1, 0, 0xFFFFFFFF, 0xFFFFFFFF, 1] := by decide
theorem test_alu_row5 : aluRow 0x7FFFFFFF 0x80000000 = [0xFFFFFFFF, 0xFFFFFFFF, 0, 0xFFFFFFFF, 0xFFFFFFFF, 0] := by decide
theorem test_alu_row6 : aluRow 0x0000FF0F 0x00F0F0FF = [0x00F1F00E, 0xFF100E10, 0xF00F, 0x00F0FFFF, 0x00F00FF0, 1] := by decide

theorem test_branch_back : branchTarget 0x10 (sext32 0xFFFD) = 8 := by decide
theorem test_branch_on : branchTarget 4 (sext32 1) = 0xC := by decide
theorem test_branch_low : branchTarget 0 (sext32 0x8000) = 0xFFFE0004 := by decide
theorem test_branch_wraps : branchTarget 0xFFFFFFFC (sext32 0) = 0 := by decide
theorem test_branch_high : branchTarget 0x100 (sext32 0x7FFF) = 0x00020100 := by decide

/-! ### States to test single cycles on -/

/-- The state a step leaves. -/
def next (s : State) : State :=
  match step s with
  | .next t => t
  | .fault _ => s
  | .refused _ => s

theorem step_next (s : State) : step s = .next (next s) := by
  obtain ⟨t, h⟩ := step_answers_next s
  rw [next, h]

/-- Reset, with `w` loaded at 0 and in Decode. -/
def inDecode (w : Word) : State := State.reset.placeInDecode w

/-- Both banks holding `v` in register `r`. -/
def withReg (s : State) (r : RegIdx) (v : Word) : State :=
  { s with regs := ⟨bankSet s.regs.committed r v, bankSet s.regs.pending r v⟩ }

/-- `ADD r1, r2, r3` in Execute with `r2` = 5 and `r3` = 7, and `ADD r4, r1, r5` in Decode (program P1, cycle 3). -/
def addPair : State :=
  withReg (withReg { inDecode 0x04252001 with idex := ⟨1, 0, .alur, .add, 2, 3, 1, 5, 7, 0⟩ } 2 5) 3 7

/-- `LW r1, 0(r2)` in Execute with `r2` = 0x40, `DMEM[0x40]` = 0x1234, and `ADD r4, r1, r5` in Decode (P2, cycle 3). -/
def loadUsePair : State :=
  withReg { inDecode 0x04252001 with
    idex := ⟨1, 0, .lw, .add, 2, 0, 1, 0x40, 0, 0⟩, dmem := Memory.ofImage [(0x40, 0x1234)] } 2 0x40

/-- `BEQ r0, r0, 1` of address 4 in Execute and an undecodable word in Decode (program P5, cycle 4). -/
def takenBranch : State :=
  { inDecode 0xFFFFFFFF with idex := ⟨2, 4, .beq, .sub, 0, 0, 0, 0, 0, 1⟩ }

/-- `SW` in Memory storing 0x55 at 0x10, `LW r2, 0x10(r0)` in Execute (program P6). -/
def storeThenLoad : State :=
  { inDecode 0 with idex := ⟨3, 8, .lw, .add, 0, 0, 2, 0, 0, 0x10⟩, exmem := ⟨2, .sw, 0, 0x10, 0x55⟩ }

/-- A load in Memory with effective address 2 (run E1, cycle 5), and an undecodable word in Decode (run E5). -/
def misaligned : State := { inDecode 0x1C000000 with exmem := ⟨2, .lw, 2, 2, 0⟩ }

/-- HALT in Memory: the fetch has stopped. -/
def draining : State := { State.reset with pc := 4, fetchStopped := true, exmem := ⟨1, .halt, 0, 0, 0⟩ }

/-- A machine whose PC is misaligned, which no run reaches. -/
def badPc : State := { State.reset with pc := 2 }

/-! ### One cycle of each instruction -/

theorem test_nop_step : (next (inDecode 0)).idex = ⟨1, 0, .nop, .none, 0, 0, 0, 0, 0, 0⟩ ∧ (next (inDecode 0)).pc = 8 := by
  decide

/-- P1, cycle 4: the second ADD's stale operand is replaced by the first's result 0xC. -/
theorem test_add_forwards : (next addPair).exmem.result = 0xC ∧ operandA (next addPair) = 0xC ∧
    (next addPair).idex.operand1 = 0 := by decide

theorem test_sub_execute :
    (next { addPair with idex := ⟨1, 0, .alur, .sub, 2, 3, 1, 5, 7, 0⟩ }).exmem.result = 0xFFFFFFFE := by decide
theorem test_and_decodes : (next (inDecode 0x04430803)).idex = ⟨1, 0, .alur, .and, 2, 3, 1, 0, 0, 0⟩ := by decide
theorem test_or_decodes : (next (inDecode 0x04430804)).idex = ⟨1, 0, .alur, .or, 2, 3, 1, 0, 0, 0⟩ := by decide
theorem test_xor_decodes : (next (inDecode 0x04430805)).idex = ⟨1, 0, .alur, .xor, 2, 3, 1, 0, 0, 0⟩ := by decide

/-- 40_alu.md's example: -1 is less than 0. -/
theorem test_slt_execute :
    (next { addPair with idex := ⟨1, 0, .alur, .slt, 0, 0, 1, 0xFFFFFFFF, 0, 0⟩ }).exmem.result = 1 := by decide

/-- `ADDI r1, r1, -1` with `r1` = 5 gives 4 (R137). -/
theorem test_addi_execute :
    (next { addPair with idex := ⟨1, 0, .addi, .add, 1, 0, 1, 5, 0, sext32 0xFFFF⟩ }).exmem.result = 4 := by decide

/-- P2, cycles 3 and 4: the stall holds the PC and IF/ID, and the loaded word reaches MEM/WB. -/
theorem test_lw_stall : (next loadUsePair).pc = loadUsePair.pc ∧ (next loadUsePair).ifid = loadUsePair.ifid ∧
    (next loadUsePair).idex = IdEx.bubble ∧ (next (next loadUsePair)).memwb = ⟨1, .lw, 1, 0x1234⟩ := by decide

/-- P2, cycle 5: the consumer takes the loaded word from MEM/WB. -/
theorem test_lw_forwards : operandA (next (next loadUsePair)) = 0x1234 := by decide

theorem test_sw_writes : (next storeThenLoad).dmem = [(0x10, 0x55)] ∧ (next storeThenLoad).memwb.destReg = 0 := by decide
theorem test_sw_then_lw : (next (next storeThenLoad)).memwb.result = 0x55 := by decide

/-- P5, cycle 4: the undecodable word on the wrong path raises nothing and the PC goes to the target. -/
theorem test_beq_flush : (next takenBranch).pc = 0xC ∧ (next takenBranch).fault = none ∧
    (next takenBranch).ifid = IfId.bubble ∧ (next takenBranch).idex = IdEx.bubble := by decide

/-- BNE of equal registers is not taken: the word after it goes on (R164). -/
theorem test_bne_not_taken :
    flushSignal { takenBranch with idex := ⟨2, 4, .bne, .sub, 0, 0, 0, 0, 0, 1⟩ } = false := by decide

/-- HALT decoded: the fetch stops and the PC is held at 4 (section 2.5). -/
theorem test_halt_stops_fetch : (next (inDecode 0xFC000000)).fetchStopped = true ∧ (next (inDecode 0xFC000000)).pc = 4 ∧
    (next (inDecode 0xFC000000)).ifid = IfId.bubble := by decide
theorem test_halt_sets_halted : (next (next draining)).halted = true := by decide

/-! ### Errors (section 5) -/

/-- E5: of two errors in one cycle the older instruction's is reported, and nothing else changes. -/
theorem test_oldest_error :
    next misaligned = { misaligned with fault := some ⟨.misalignedAccess 2, 2, misaligned.cycles + 1⟩ } := by decide

/-- E2: an unknown word. -/
theorem test_unknown_error : (next (inDecode 0x1C000000)).fault = some ⟨.unknownOpcode 0x1C000000, 1, 2⟩ := by decide

/-- E7: a further cycle changes nothing. -/
theorem test_error_sticky : next (next misaligned) = next misaligned := by decide

theorem test_fetch_error : (next badPc).fault = some ⟨.misalignedAccess 2, 1, 1⟩ := by decide

/-- R271, reached through a term that no word decodes to. -/
theorem test_out_of_range : (clockCycle (some (fieldsR AluOp.add.code 1 40 2)) (inDecode 0)).fault =
    some ⟨.outOfRange 40, 1, 2⟩ := by decide

/-! ### Reset (section 2.7) and what the host sees -/

theorem test_first_cycle : (next State.reset).pc = 4 ∧ (next State.reset).ifid = ⟨1, 0, 0⟩ ∧
    (next State.reset).idex = IdEx.bubble ∧ State.reset.isHalted = false := by decide

/-- `placeInDecode` is the Fetch cycle after loading the word: from a reset with that image, one step gives it. -/
theorem test_place_is_fetch :
    next { State.reset with imem := Memory.ofImage [(0, 0x04430801)] } = inDecode 0x04430801 := by decide

theorem test_host_reads : (next misaligned).cycleReturn = (next misaligned).fault ∧
    addPair.snapshot.committed = addPair.regs.committed ∧
    stallEvent refdec loadUsePair = some ⟨loadUsePair.cycles + 1, 1, .loadUse⟩ ∧ stallEvent refdec addPair = none := by
  decide

/-- A cycle that asserts the stall and raises the error of an older access sends no event (notes/assumptions/16.md). -/
theorem test_no_event_in_error_cycle :
    let s : State := { loadUsePair with exmem := ⟨7, .sw, 0, 2, 0⟩ }
    stallSignal (refdec s.ifid.instruction) s = true ∧ (next s).fault ≠ none ∧ stallEvent refdec s = none := by decide

theorem test_drive_stops : drive refdec 3 (next misaligned) = next misaligned := by decide

/-! ### The reference machine: the single-instruction effects of section 2.3 and R163 -/

theorem test_seq_load : seqExec (.lw 1 0 1) (ArchState.writeNext ⟨0, State.reset.regs.committed, [(0x10, 0x20)]⟩ 1 0x10) =
    .next ⟨8, bankSet State.reset.regs.committed 1 0x20, [(0x10, 0x20)]⟩ := by decide
theorem test_seq_misaligned : seqExec (.sw 0 6 0) ⟨0, State.reset.regs.committed, []⟩ = .error (.misalignedAccess 6) := by
  decide
theorem test_seq_branch : seqExec (.beq 0 0 1) ⟨4, State.reset.regs.committed, []⟩ =
    .next ⟨0xC, State.reset.regs.committed, []⟩ := by decide

/-- `NOP; HALT` takes 6 cycles (section 2.5): n = 2. -/
theorem test_seq_run : seqRun refdec (Memory.ofImage [(4, 0xFC000000)]) 2 none ⟨0, State.reset.regs.committed, []⟩ =
    some ⟨⟨4, State.reset.regs.committed, []⟩, 2, 0, 0⟩ := by decide

/-- A decoder that is not `REFDEC` and meets the contract: 0 is a NOP, 1 a HALT, 2 `SW r0, 6(r0)`, and nothing else is an
instruction. -/
def toyDecoder : Decoder := fun w =>
  if w = 0 then some (fieldsN .nop)
  else if w = 1 then some (fieldsN .halt)
  else if w = 2 then some (fieldsStore 0 0 6)
  else none

/-- What `toyDecoder` answers passes the Decode check as this record. -/
theorem toyDecoder_cases {w : Word} {f : RawFields} (h : toyDecoder w = some f) :
    ∃ d, checkFields w (some f) = .ok d ∧ d.destReg = 0#5 := by
  unfold toyDecoder at h
  split at h
  · cases h; exact ⟨_, checkFields_ok w .nop .none 0 (by decide) (by decide) (by decide), rfl⟩
  split at h
  · cases h; exact ⟨_, checkFields_ok w .halt .none 0 (by decide) (by decide) (by decide), rfl⟩
  split at h
  · cases h; exact ⟨_, checkFields_ok w .sw .add (sext32 6) (by decide) (by decide) (by decide), rfl⟩
  · cases h

theorem toyDecoder_contract : DecodeContract toyDecoder where
  zeroWord := rfl
  members _ _ h := let ⟨d, hd, _⟩ := toyDecoder_cases h; ⟨d, hd⟩
  noDest w f d h hd _ := by
    obtain ⟨d', hd', h0⟩ := toyDecoder_cases h
    rw [hd] at hd'
    cases hd'
    exact h0

/-- The reference machine with that decoder: a word that is a branch of DPS-REF is unknown to it (R217). -/
theorem test_seq_other_decoder :
    seqStep toyDecoder (Memory.ofImage [(0, 1)]) ⟨0, State.reset.regs.committed, []⟩ = .stopped ∧
    seqStep toyDecoder (Memory.ofImage [(0, 0x14000001)]) ⟨0, State.reset.regs.committed, []⟩ =
      .error (.unknownOpcode 0x14000001) := by decide

/-! ### Witnesses: states and operands that meet each statement's hypotheses together -/

theorem witness_DecodeOfEncodeReturnsInstruction : ∃ i : Instr, i.wellFormed = true := ⟨.slt 31 31 31, by decide⟩

theorem witness_EncodeOfDecodeReturnsWord : ∃ w i, decodeWord w = .ok i := ⟨0x07FFF806, .slt 31 31 31, by decide⟩

theorem witness_ReferenceDecoderMeetsContract : ∃ w f, refdec w = some f :=
  ⟨0x0D07FFFC, ⟨0x03, 0x01, 8, 0, 7, 0xFFFFFFFC⟩, by decide⟩

theorem witness_StepRunsInstructionInDecode :
    (∃ s : State, ∃ i, decodeWord s.ifid.instruction = .ok i) ∧ (∃ s : State, ∃ e, decodeWord s.ifid.instruction = .error e) :=
  ⟨⟨addPair, .add 4 1 5, by decide⟩, ⟨inDecode 0x1C000000, .unknownOpcode 0x1C000000, by decide⟩⟩

theorem witness_FetchedWordRunsInNextStep : ∃ s t : State, ∃ i, step s = .next t ∧ s.frozen = false ∧ t.fault = none ∧
    flushSignal s = false ∧ stallSignal (refdec s.ifid.instruction) s = false ∧ s.fetchStopped = false ∧
    haltDec (refdec s.ifid.instruction) s = false ∧ decodeWord (s.imem.readWord s.pc) = .ok i :=
  ⟨{ State.reset with imem := Memory.ofImage [(0, 0x04430801)] }, _, .add 1 2 3, step_next _, by decide⟩

theorem witness_FrozenMachineNeverChanges :
    (∃ s : State, s.halted = true) ∧ (∃ s : State, s.halted = false ∧ s.fault ≠ none) :=
  ⟨⟨next (next draining), by decide⟩, ⟨next misaligned, by decide⟩⟩

theorem witness_RegisterFileReadsOldWritesNew : (31 ≤ 31 ∧ 0 ≤ 31) ∧ 31 < 32 := by decide

theorem witness_StoreIsSeenByLaterLoads : ∃ s t : State, s.dmem.wf ∧ step s = .next t ∧ s.frozen = false ∧ t.fault = none ∧
    s.exmem.opcode = .sw ∧ t.exmem.opcode = .lw ∧ t.exmem.result = s.exmem.result :=
  ⟨storeThenLoad, _, by decide, step_next _, by decide⟩

theorem witness_StoreIsSeenByLaterLoads_elsewhere : ∃ s t : State, s.dmem.wf ∧ step s = .next t ∧ s.frozen = false ∧
    t.fault = none ∧ s.exmem.opcode = .sw ∧ t.exmem.opcode = .lw ∧ t.exmem.result ≠ s.exmem.result ∧
    isWordAddress t.exmem.result = true :=
  ⟨{ storeThenLoad with exmem := ⟨2, .sw, 0, 0x14, 0x55⟩ }, _, by decide, step_next _, by decide⟩

theorem witness_InstructionMemoryNeverChanges : ∃ s t : State, step s = .next t ∧ s.imem ≠ [] :=
  ⟨addPair, _, step_next _, by decide⟩

theorem witness_AluTable_slt : ∃ a b : Word, a.toInt < b.toInt ∧ b.toInt ≤ b.toInt := ⟨0x80000000, 0x7FFFFFFF, by decide⟩

/-- The third row of R240 and the two forwarding rows, and EX/MEM before MEM/WB (P4, cycle 6). -/
theorem witness_ForwardTakesNearestProducer :
    let s : State := { inDecode 0 with exmem := ⟨3, .addi, 1, 3, 0⟩, memwb := ⟨2, .addi, 1, 2⟩ }
    forward s 1 9 true = 3 ∧ forward { s with exmem := ExMem.bubble } 1 9 true = 2 ∧ forward s 2 9 true = 9 ∧
    forward { s with exmem := ⟨3, .lw, 1, 3, 0⟩ } 1 9 true = 2 ∧ forward s 0 0 true = 0 := by decide

theorem witness_FetchUnitRows_flush : ∃ s t : State, step s = .next t ∧ s.frozen = false ∧ t.fault = none ∧
    flushSignal s = true := ⟨takenBranch, _, step_next _, by decide⟩

theorem witness_FetchUnitRows_stall : ∃ s t : State, step s = .next t ∧ s.frozen = false ∧ t.fault = none ∧
    flushSignal s = false ∧ stallSignal (refdec s.ifid.instruction) s = true :=
  ⟨loadUsePair, _, step_next _, by decide⟩

theorem witness_FetchUnitRows_stop : ∃ s t : State, step s = .next t ∧ s.frozen = false ∧ t.fault = none ∧
    flushSignal s = false ∧ stallSignal (refdec s.ifid.instruction) s = false ∧
    (s.fetchStopped || haltDec (refdec s.ifid.instruction) s) = true :=
  ⟨inDecode 0xFC000000, _, step_next _, by decide⟩

theorem witness_FetchUnitRows_normal : ∃ s t : State, step s = .next t ∧ s.frozen = false ∧ t.fault = none ∧
    flushSignal s = false ∧ stallSignal (refdec s.ifid.instruction) s = false ∧
    (s.fetchStopped || haltDec (refdec s.ifid.instruction) s) = false ∧ s.pc = 0xFFFFFFFC :=
  ⟨{ addPair with pc := 0xFFFFFFFC }, _, step_next _, by decide⟩

/-- Also the second clause of `DecodeStageLatches`, with the bypass of `r2` in use. -/
theorem witness_DecodeStageLatches : ∃ s t : State, step s = .next t ∧ s.frozen = false ∧ t.fault = none ∧
    flushSignal s = false ∧ stallSignal (refdec s.ifid.instruction) s = false ∧ t.idex.operand1 = 9 :=
  ⟨{ inDecode 0x04430801 with memwb := ⟨1, .addi, 2, 9⟩ }, _, step_next _, by decide⟩

theorem witness_ExecuteStageLatches : ∃ s t : State, step s = .next t ∧ s.frozen = false ∧ t.fault = none ∧
    s.idex.opcode.usesImm = false ∧ t.exmem.result = 0xC := ⟨addPair, _, step_next _, by decide⟩

theorem witness_MemoryStageReadsAndWrites : ∃ s t : State, s.dmem.wf ∧ step s = .next t ∧ s.frozen = false ∧ t.fault = none ∧
    s.exmem.opcode = .sw := ⟨storeThenLoad, _, by decide, step_next _, by decide⟩

theorem witness_MemoryStageReadsAndWrites_load : ∃ s t : State, s.dmem.wf ∧ step s = .next t ∧ s.frozen = false ∧
    t.fault = none ∧ s.exmem.opcode = .lw ∧ t.memwb.result = 0x1234 :=
  ⟨next loadUsePair, _, by decide, step_next _, by decide⟩

theorem witness_WritebackCommits : ∃ s t : State, s.BanksAgree ∧ step s = .next t ∧ s.frozen = false ∧ t.fault = none ∧
    s.memwb.opcode.writesReg = true ∧ s.memwb.destReg ≠ 0 :=
  ⟨{ inDecode 0 with memwb := ⟨1, .addi, 31, 9⟩ }, _, by decide, step_next _, by decide⟩

theorem witness_WritebackCommits_zero : ∃ s t : State, s.BanksAgree ∧ step s = .next t ∧ s.frozen = false ∧ t.fault = none ∧
    s.memwb.opcode.writesReg = true ∧ s.memwb.destReg = 0 ∧ bankGet t.regs.committed 0 = 0 :=
  ⟨{ inDecode 0 with memwb := ⟨1, .addi, 0, 9⟩ }, _, by decide, step_next _, by decide⟩

theorem witness_StallHoldsFetchAndEmptiesExecute : ∃ (s : State) (f : Decoded),
    checkFields s.ifid.instruction (refdec s.ifid.instruction) = .ok f ∧ s.frozen = false ∧ memError s = none ∧
    stallSignal (refdec s.ifid.instruction) s = true :=
  ⟨loadUsePair, ⟨.alur, .add, 1, 5, 4, 0⟩, by decide⟩

theorem witness_StallLastsOneCycle : ∃ s t : State, s.PipelineInv ∧ step s = .next t ∧ s.frozen = false ∧ t.fault = none ∧
    stallSignal (refdec s.ifid.instruction) s = true ∧ ∃ u, step t = .next u ∧ u.fault = none ∧
      u.idex.opcode.uses1 = true ∧ u.idex.src1Reg = t.exmem.destReg :=
  ⟨loadUsePair, _, by decide, step_next _, by decide, by decide, by decide, _, step_next _, by decide⟩

theorem witness_BackToBackResultIsForwarded : ∃ s t : State, step s = .next t ∧ s.frozen = false ∧ t.fault = none ∧
    (s.idex.opcode = .alur ∨ s.idex.opcode = .addi) ∧ s.idex.destReg ≠ 0 ∧ t.idex.opcode.uses1 = true ∧
    t.idex.src1Reg = s.idex.destReg := ⟨addPair, _, step_next _, by decide⟩

theorem witness_FlushSquashesYoungerWords : ∃ s : State, s.frozen = false ∧ flushSignal s = true ∧ memError s = none :=
  ⟨takenBranch, by decide⟩

theorem witness_ForwardedOperandsAreSequential : ∃ s : State, s.PipelineInv ∧ s.idex.opcode.uses1 = true ∧
    s.idex.opcode.uses2 = true := ⟨next addPair, by decide⟩

theorem witness_NothingIsFetchedAfterHalt : ∃ s t : State, s.PipelineInv ∧ s.fetchStopped = true ∧ step s = .next t :=
  ⟨draining, _, by decide, by decide, step_next _⟩

theorem witness_ErrorCommitsNothing : ∃ s t : State, step s = .next t ∧ s.fault = none ∧ t.fault ≠ none :=
  ⟨misaligned, _, step_next _, by decide⟩

theorem witness_ReportNumbersFailingCycle : ∃ (p : Params) (n : Nat) (u : State) (r : ErrorReport),
    core.run n (State.resetWith p) = .next u ∧ u.fault = some r ∧ r.cycle = 2 :=
  ⟨{ Params.default with imemImage := [(0, 0xFFFFFFFF)] }, 3, _, _, by rfl, by rfl, by decide⟩

theorem witness_MisalignedDataAccessRaises : ∃ s : State, s.frozen = false ∧ (s.exmem.opcode = .lw ∨ s.exmem.opcode = .sw) ∧
    s.exmem.result.toNat % 4 ≠ 0 := ⟨misaligned, by decide⟩

theorem witness_UnknownWordRaises : ∃ (dec : Decoder) (s : State), s.frozen = false ∧ flushSignal s = false ∧
    memError s = none ∧ dec s.ifid.instruction = none := ⟨refdec, inDecode 0x1C000000, by decide⟩

/-- A decoder that answers an opcode value outside the enum. -/
theorem witness_UnknownWordRaises_enum : ∃ (dec : Decoder) (s : State), s.frozen = false ∧ flushSignal s = false ∧
    memError s = none ∧ ∃ f, dec s.ifid.instruction = some f ∧ Opcode.ofCode f.opcode = none :=
  ⟨fun _ => some ⟨7, 0, 0, 0, 0, 0⟩, inDecode 0, by decide, by decide, by decide, _, rfl, by decide⟩

/-- A decoder that answers members of both enums and an index of 32, the least one out of range. -/
theorem witness_IllFormedInstructionRaisesOutOfRange_decoder : ∃ (dec : Decoder) (f : RawFields) (s : State),
    s.frozen = false ∧ flushSignal s = false ∧ memError s = none ∧ dec s.ifid.instruction = some f ∧
    Opcode.ofCode f.opcode ≠ none ∧ AluOp.ofCode f.aluOp ≠ none ∧ f.src1Reg = 31 ∧ f.src2Reg = 32 :=
  ⟨fun _ => some (fieldsR AluOp.add.code 1 31 32), _, inDecode 0, by decide, by decide, by decide, rfl, by decide⟩

theorem witness_IllFormedInstructionRaisesOutOfRange : ∃ (i : Instr) (s : State), i.wellFormed = false ∧ s.frozen = false ∧
    flushSignal s = false ∧ memError s = none := ⟨.add 1 40 2, inDecode 0, by decide⟩

theorem witness_MisalignedFetchRaises : ∃ (s : State) (f : Decoded), s.frozen = false ∧ memError s = none ∧
    s.pc.toNat % 4 ≠ 0 ∧ flushSignal s = false ∧
    checkFields s.ifid.instruction (refdec s.ifid.instruction) = .ok f ∧
    stallSignal (refdec s.ifid.instruction) s = false ∧ s.fetchStopped = false ∧ f.opcode ≠ .halt :=
  ⟨badPc, Decoded.zero, by decide⟩

theorem witness_MisalignedFetchRaises_stopped : ∃ (s : State) (f : Decoded), s.frozen = false ∧ memError s = none ∧
    s.pc.toNat % 4 ≠ 0 ∧ flushSignal s = false ∧
    checkFields s.ifid.instruction (refdec s.ifid.instruction) = .ok f ∧ s.fetchStopped = true :=
  ⟨{ badPc with fetchStopped := true }, Decoded.zero, by decide⟩

/-! Each instruction's completion: `r31`, `r0` and forwarded sources included. -/

theorem witness_NopCompletes : ∃ s : State, s.PipelineInv ∧ s.accepts [] = true := ⟨inDecode 0, by decide⟩

theorem witness_AddCompletes : ∃ (s : State) (rd rs rt : Nat), rd ≤ 31 ∧ rs ≤ 31 ∧ rt ≤ 31 ∧ s.PipelineInv ∧
    s.accepts [rs, rt] = true ∧ s.arch.x rs = 12 := ⟨addPair, 4, 1, 5, by decide⟩

theorem witness_SubCompletes : ∃ (s : State) (rd rs rt : Nat), rd ≤ 31 ∧ rs ≤ 31 ∧ rt ≤ 31 ∧ s.PipelineInv ∧
    s.accepts [rs, rt] = true := ⟨addPair, 0, 31, 1, by decide⟩

theorem witness_AndCompletes : ∃ (s : State) (rd rs rt : Nat), rd ≤ 31 ∧ rs ≤ 31 ∧ rt ≤ 31 ∧ s.PipelineInv ∧
    s.accepts [rs, rt] = true := ⟨addPair, 31, 2, 3, by decide⟩

theorem witness_OrCompletes : ∃ (s : State) (rd rs rt : Nat), rd ≤ 31 ∧ rs ≤ 31 ∧ rt ≤ 31 ∧ s.PipelineInv ∧
    s.accepts [rs, rt] = true := ⟨addPair, 31, 2, 0, by decide⟩

theorem witness_XorCompletes : ∃ (s : State) (rd rs rt : Nat), rd ≤ 31 ∧ rs ≤ 31 ∧ rt ≤ 31 ∧ s.PipelineInv ∧
    s.accepts [rs, rt] = true := ⟨addPair, 1, 1, 1, by decide⟩

theorem witness_SltCompletes : ∃ (s : State) (rd rs rt : Nat), rd ≤ 31 ∧ rs ≤ 31 ∧ rt ≤ 31 ∧ s.PipelineInv ∧
    s.accepts [rs, rt] = true ∧ (s.arch.x rs).toInt < (s.arch.x rt).toInt := ⟨addPair, 4, 2, 1, by decide⟩

theorem witness_AddiCompletes : ∃ (s : State) (rt rs : Nat), rt ≤ 31 ∧ rs ≤ 31 ∧ s.PipelineInv ∧ s.accepts [rs] = true :=
  ⟨addPair, 0, 1, by decide⟩

theorem witness_LoadWordCompletes : ∃ (s : State) (rt rs : Nat) (imm : BitVec 16), rt ≤ 31 ∧ rs ≤ 31 ∧ s.PipelineInv ∧
    s.accepts [rs] = true ∧ (s.arch.x rs + sext32 imm).toNat % 4 = 0 := ⟨addPair, 4, 1, 0xFFFC, by decide⟩

theorem witness_StoreWordCompletes : ∃ (s : State) (rt rs : Nat) (imm : BitVec 16), rt ≤ 31 ∧ rs ≤ 31 ∧ s.PipelineInv ∧
    s.dmem.wf ∧ s.accepts [rs, rt] = true ∧ (s.arch.x rs + sext32 imm).toNat % 4 = 0 :=
  ⟨addPair, 1, 0, 0xFFFC, by decide⟩

theorem witness_MisalignedLoadStoreRaisesInMemory : ∃ (s : State) (i : Instr) (rt rs : Nat) (imm : BitVec 16), rt ≤ 31 ∧
    rs ≤ 31 ∧ s.PipelineInv ∧ ((i = .lw rt imm rs ∧ s.accepts [rs] = true) ∨ (i = .sw rt imm rs ∧ s.accepts [rs, rt] = true)) ∧
    (s.arch.x rs + sext32 imm).toNat % 4 ≠ 0 := ⟨addPair, .lw 4 1 1, 4, 1, 1, by decide⟩

theorem witness_BranchIfEqualCompletes : ∃ (s : State) (rs rt : Nat), rs ≤ 31 ∧ rt ≤ 31 ∧ s.PipelineInv ∧
    s.accepts [rs, rt] = true ∧ s.arch.x rs = s.arch.x rt := ⟨addPair, 0, 31, by decide⟩

theorem witness_BranchIfNotEqualCompletes : ∃ (s : State) (rs rt : Nat), rs ≤ 31 ∧ rt ≤ 31 ∧ s.PipelineInv ∧
    s.accepts [rs, rt] = true ∧ s.arch.x rs ≠ s.arch.x rt := ⟨addPair, 1, 2, by decide⟩

theorem witness_HaltCompletes : ∃ s : State, s.PipelineInv ∧ s.accepts [] = true ∧
    s.ifid.instruction = 0xFC000000 := ⟨inDecode 0xFC000000, by decide⟩

theorem witness_EveryInstructionFrame : ∃ (i : Instr) (s t : State), s.BanksAgree ∧ s.dmem.wf ∧ exec i s = .next t :=
  ⟨.halt, storeThenLoad, _, by decide, by decide, rfl⟩

/-- `INIT_REGS`, where entry 0 is not looked at, and an image with two entries for one address. -/
theorem witness_ResetTakesParameters : ∃ p : Params, p.wellFormed = true ∧
    bankGet (State.resetWith p).regs.committed 31 = 7 ∧ bankGet (State.resetWith p).regs.committed 0 = 0 ∧
    (State.resetWith p).dmem.readWord 8 = 5 :=
  ⟨⟨0xFFFFFFF8, Vector.replicate 32 7, [(0xFFFFFFF8, 0x08010001)], [(8, 5), (8, 6)]⟩, by decide⟩

theorem witness_InvariantsHoldAtReset : ∃ p : Params, p.wellFormed = true ∧ p.imemImage ≠ [] ∧ p.resetPc = 0xFFFFFFF8 :=
  ⟨⟨0xFFFFFFF8, Vector.replicate 32 7, [(0xFFFFFFF8, 0x08010001)], []⟩, by decide⟩

theorem witness_StepKeepsPipelineInvariant : ∃ s t : State, s.PipelineInv ∧ step s = .next t :=
  ⟨loadUsePair, _, by decide, step_next _⟩

theorem witness_StepKeepsProgramOrder : ∃ s t : State, s.InOrder ∧ s.nextInstNo + 1 ≠ 0 ∧ step s = .next t ∧
    t.nextInstNo ≠ s.nextInstNo :=
  ⟨{ addPair with ifid := ⟨2, 0x04252001, 4⟩, nextInstNo := 3 }, _, by decide, by decide, step_next _, by decide⟩

theorem witness_AnyContractDecoderKeepsInvariant : ∃ (dec : Decoder) (s : State), DecodeContract dec ∧ s.PipelineInv :=
  ⟨toyDecoder, loadUsePair, toyDecoder_contract, by decide⟩

theorem witness_StepKeepsMemoriesCanonical : ∃ s t : State, s.MemoriesWf ∧ step s = .next t ∧ t.dmem ≠ s.dmem :=
  ⟨storeThenLoad, _, by decide, step_next _, by decide⟩

theorem witness_SequenceNumbersNeverControl : ∃ s₁ s₂ t₁ t₂ : State, s₁ ≠ s₂ ∧ s₁.eraseInstNo = s₂.eraseInstNo ∧
    step s₁ = .next t₁ ∧ step s₂ = .next t₂ :=
  ⟨addPair, { addPair with nextInstNo := 9 }, _, _, by decide, by decide, step_next _, step_next _⟩

/-- `toyDecoder`'s store goes from Decode to Execute. -/
theorem witness_PipelineFollowsSequentialMachine : ∃ (dec : Decoder) (s : State), DecodeContract dec ∧ s.PipelineInv ∧
    s.frozen = false ∧ s.nextInstNo ≠ 0 ∧ (cycleWith dec s).fault = none ∧
    s.issues (dec s.ifid.instruction) = true ∧ (cycleWith dec s).idex.opcode = .sw :=
  ⟨toyDecoder, inDecode 2, toyDecoder_contract, by decide⟩

/-- A taken branch: the word in Decode does not go on. -/
theorem witness_PipelineFollowsSequentialMachine_flush : ∃ (dec : Decoder) (s : State), DecodeContract dec ∧
    s.PipelineInv ∧ s.frozen = false ∧ s.nextInstNo ≠ 0 ∧ (cycleWith dec s).fault = none ∧
    s.issues (dec s.ifid.instruction) = false :=
  ⟨toyDecoder, { takenBranch with pc := 4 }, toyDecoder_contract, by decide⟩

theorem witness_InFlightInstructionsRetire : ∃ s : State, s.PipelineInv ∧ s.idex.destReg = 1 := ⟨addPair, by decide⟩

/-- The state in which the first instruction after reset is to be executed. -/
def firstArch : ArchState := ⟨0, State.reset.regs.committed, []⟩

theorem witness_PipelinedRunEqualsSequentialRun : ∃ (dec : Decoder) (p : Params) (fuel : Nat) (r : SeqRun),
    DecodeContract dec ∧ p.wellFormed = true ∧
    seqRun dec (State.resetWith p).imem fuel none (State.resetWith p).arch = some r ∧
    r.executed + 4 + r.stalls + 2 * r.taken < 2 ^ 64 :=
  ⟨toyDecoder, { Params.default with imemImage := [(4, 1)] }, 2, ⟨{ firstArch with pc := 4 }, 2, 0, 0⟩,
    toyDecoder_contract, by decide, by decide, by decide⟩

theorem witness_SequentialErrorStopsPipeline_unknown : ∃ (dec : Decoder) (p : Params) (fuel : Nat),
    DecodeContract dec ∧ p.wellFormed = true ∧ fuel < 2 ^ 61 ∧
    seqError dec (State.resetWith p).imem fuel (State.resetWith p).arch = some (.unknownOpcode 3, firstArch) :=
  ⟨toyDecoder, { Params.default with imemImage := [(0, 3)] }, 1, toyDecoder_contract, by decide⟩

/-- The misaligned store, and a NOP after it. -/
theorem witness_SequentialErrorStopsPipeline_misaligned : ∃ (dec : Decoder) (p : Params) (fuel : Nat),
    DecodeContract dec ∧ p.wellFormed = true ∧ fuel < 2 ^ 61 ∧
    (dec ((State.resetWith p).imem.readWord 4)).isSome = true ∧
    seqError dec (State.resetWith p).imem fuel (State.resetWith p).arch = some (.misalignedAccess 6, firstArch) :=
  ⟨toyDecoder, { Params.default with imemImage := [(0, 2)] }, 1, toyDecoder_contract, by decide⟩

/-- The same store with an undecodable word after it (the exception of R278 (c)). -/
theorem witness_SequentialErrorStopsPipeline_exception : ∃ (dec : Decoder) (p : Params) (fuel : Nat),
    DecodeContract dec ∧ p.wellFormed = true ∧ fuel < 2 ^ 61 ∧
    (dec ((State.resetWith p).imem.readWord 4)).isSome = false ∧
    seqError dec (State.resetWith p).imem fuel (State.resetWith p).arch = some (.misalignedAccess 6, firstArch) :=
  ⟨toyDecoder, { Params.default with imemImage := [(0, 2), (4, 3)] }, 1, toyDecoder_contract, by decide⟩

theorem witness_PipelineErrorsAreSequential : ∃ (dec : Decoder) (p : Params) (n : Nat), DecodeContract dec ∧
    p.wellFormed = true ∧ n < 2 ^ 64 ∧ (cyclesWith dec n (State.resetWith p)).fault ≠ none :=
  ⟨toyDecoder, { Params.default with imemImage := [(0, 3)] }, 2, toyDecoder_contract, by decide⟩

end Sys2Proof.Tests
end

section
/-! SUPPORT. Sequence numbers are carried and reported and never read to decide anything (R42): each signal of a cycle has
the same value in a state and in that state with its numbers erased. -/

namespace Sys2Proof.Machine

/-- A stage's error with the number of the failing instruction set to 0. -/
def StageError.eraseInstNo (e : StageError) : StageError := { e with instNo := 0 }

/-! ### What a cycle reads -/

section
variable (s : State) (v : Option RawFields)

@[simp] theorem State.eraseInstNo_frozen : s.eraseInstNo.frozen = s.frozen := by
  simp [State.frozen, State.eraseInstNo]

@[simp] theorem flushSignal_eraseInstNo : flushSignal s.eraseInstNo = flushSignal s := rfl

@[simp] theorem decodeResult_eraseInstNo : decodeResult v s.eraseInstNo = decodeResult v s := rfl

@[simp] theorem stallSignal_eraseInstNo : stallSignal v s.eraseInstNo = stallSignal v s := rfl

@[simp] theorem fetchRow_eraseInstNo : fetchRow v s.eraseInstNo = fetchRow v s := rfl

/-! ### Errors: the same one from the same stage -/

theorem memError_eraseInstNo : memError s.eraseInstNo = (memError s).map StageError.eraseInstNo := by
  unfold memError
  rw [apply_ite (Option.map StageError.eraseInstNo)]
  rfl

theorem decodeError_eraseInstNo : decodeError v s.eraseInstNo = (decodeError v s).map StageError.eraseInstNo := by
  unfold decodeError
  rw [flushSignal_eraseInstNo, decodeResult_eraseInstNo]
  cases flushSignal s with
  | true => rfl
  | false => cases decodeResult v s <;> rfl

theorem fetchError_eraseInstNo : fetchError v s.eraseInstNo = (fetchError v s).map StageError.eraseInstNo := by
  unfold fetchError
  rw [fetchRow_eraseInstNo]
  cases fetchRow v s with
  | flush | stall | stop => rfl
  | normal =>
    simp only [apply_ite (Option.map StageError.eraseInstNo)]
    rfl

theorem cycleError_eraseInstNo : cycleError v s.eraseInstNo = (cycleError v s).map StageError.eraseInstNo := by
  unfold cycleError
  rw [memError_eraseInstNo, decodeError_eraseInstNo, fetchError_eraseInstNo]
  cases memError s with
  | some _ => rfl
  | none => cases decodeError v s <;> rfl

/-! ### The latches: the same contents but for the number -/

theorem ifidNext_eraseInstNo :
    { ifidNext v s.eraseInstNo with instNo := 0 } = { ifidNext v s with instNo := 0 } := by
  unfold ifidNext
  rw [fetchRow_eraseInstNo]
  cases fetchRow v s <;> rfl

theorem idexNext_eraseInstNo :
    { idexNext v s.eraseInstNo with instNo := 0 } = { idexNext v s with instNo := 0 } := by
  unfold idexNext
  rw [flushSignal_eraseInstNo, stallSignal_eraseInstNo, decodeResult_eraseInstNo]
  cases flushSignal s with
  | true => rfl
  | false =>
    cases stallSignal v s with
    | true => rfl
    | false => cases decodeResult v s <;> rfl

/-! ### The cycle and the step -/

theorem State.eraseInstNo_eraseInstNo : s.eraseInstNo.eraseInstNo = s.eraseInstNo := by
  simp [State.eraseInstNo, Function.comp_def]

theorem State.raise_eraseInstNo (e : StageError) :
    (s.eraseInstNo.raise e.eraseInstNo).eraseInstNo = (s.raise e).eraseInstNo := rfl

theorem State.commit_eraseInstNo : (s.eraseInstNo.commit v).eraseInstNo = (s.commit v).eraseInstNo := by
  have hfault : (s.eraseInstNo.commit v).eraseInstNo.fault = (s.commit v).eraseInstNo.fault :=
    (congrArg State.fault s.eraseInstNo_eraseInstNo :)
  exact State.mk.injEq .. |>.mpr ⟨rfl, rfl, rfl, rfl, ifidNext_eraseInstNo s v, idexNext_eraseInstNo s v, rfl, rfl, rfl,
    rfl, rfl, hfault, rfl⟩

/-- What a cycle leaves, numbers aside, is a function of what it starts from, numbers aside. -/
theorem clockCycle_eraseInstNo : (clockCycle v s.eraseInstNo).eraseInstNo = (clockCycle v s).eraseInstNo := by
  have herr := cycleError_eraseInstNo s v
  rcases clockCycle_cases v s with ⟨hf, h⟩ | ⟨e, hf, he, h⟩ | ⟨hf, he, h⟩
  · rw [h, clockCycle_frozen (s.eraseInstNo_frozen.trans hf), State.eraseInstNo_eraseInstNo]
  · rw [he] at herr
    rw [h, clockCycle_error (s.eraseInstNo_frozen.trans hf) herr, State.raise_eraseInstNo]
  · have hc : s.eraseInstNo.commits v = true := by simp [State.commits, hf, herr, he]
    rw [h, clockCycle_commit hc, State.commit_eraseInstNo]

end

/-- The decoder's answer that a step takes depends on nothing but the word in Decode. -/
theorem step_is_cycle_of_word (w : Word) : ∃ v, ∀ s, s.ifid.instruction = w → step s = .next (clockCycle v s) := by
  cases hw : decodeWord w with
  | ok i =>
    obtain ⟨f, hf⟩ := exec_is_cycle i
    exact ⟨some f, fun s hs => by rw [step, hs, hw, ← hf]⟩
  | error e => exact ⟨none, fun s hs => by rw [step, hs, hw, execUnknown]⟩

/-- Settles O55: one decoder's answer serves both states, and its cycle leaves in each what it leaves in their common
erasure. -/
theorem sequenceNumbersNeverControl : Obligations.SequenceNumbersNeverControl := by
  intro s₁ s₂ t₁ t₂ hs h₁ h₂
  have same_word : s₁.ifid.instruction = s₂.ifid.instruction := congrArg (·.ifid.instruction) hs
  obtain ⟨v, hv⟩ := step_is_cycle_of_word s₂.ifid.instruction
  obtain rfl : clockCycle v s₁ = t₁ := by simpa [hv s₁ same_word] using h₁
  obtain rfl : clockCycle v s₂ = t₂ := by simpa [hv s₂ rfl] using h₂
  rw [← clockCycle_eraseInstNo s₁, hs, clockCycle_eraseInstNo]

end Sys2Proof.Machine
end

section
/-! SUPPORT. The RegisterFile by register number: its ports below 32, what they refuse above, and the clock. -/

namespace Sys2Proof.Machine

/-! ### 5-bit indices -/

theorem regIdx_eq_iff {q r : Nat} (hq : q ≤ 31) (hr : r ≤ 31) : BitVec.ofNat 5 q = BitVec.ofNat 5 r ↔ q = r := by
  rw [← BitVec.toNat_inj, BitVec.toNat_ofNat, BitVec.toNat_ofNat]
  omega

theorem regIdx_eq_zero_iff {r : Nat} (hr : r ≤ 31) : BitVec.ofNat 5 r = 0#5 ↔ r = 0 :=
  regIdx_eq_iff hr (Nat.zero_le 31)

/-! ### The ports -/

section
variable (f : RegFile) {reg : Nat} (v : Word)

theorem RegFile.read_of_le (h : reg ≤ 31) : f.read reg = .ok (archReg f.committed (BitVec.ofNat 5 reg)) := if_pos h

theorem RegFile.read_of_gt (h : 31 < reg) : f.read reg = .error (.outOfRange reg) := if_neg (Nat.not_le.mpr h)

theorem RegFile.write_of_le (h : reg ≤ 31) : f.write reg v = .ok (f.writePort (BitVec.ofNat 5 reg) v) := if_pos h

theorem RegFile.write_of_gt (h : 31 < reg) : f.write reg v = .error (.outOfRange reg) := if_neg (Nat.not_le.mpr h)

/-- A write reaches the pending bank only, so no read sees it before the clock (R25). -/
theorem RegFile.read_writePort (r : RegIdx) (q : Nat) : (f.writePort r v).read q = f.read q := rfl

/-- After the clock the written register reads as the value written, and no other register changes (R24). -/
theorem RegFile.read_clock_writePort {q : Nat} (hr : reg ≤ 31) (hq : q ≤ 31) :
    (f.writePort (BitVec.ofNat 5 reg) v).clock.read q = if q = reg ∧ reg ≠ 0 then .ok v else f.clock.read q := by
  simp only [RegFile.read_of_le _ hq, RegFile.clock_committed, RegFile.writePort_pending, archReg_bankSet, ne_eq,
    regIdx_eq_iff hq hr, regIdx_eq_zero_iff hr]
  split <;> rfl

end

/-- Settles O10: each clause is a port's answer below or above 32, and the clock copies the bank it is read from. -/
theorem registerFileReadsOldWritesNew : Obligations.RegisterFileReadsOldWritesNew := by
  intro f reg v
  refine ⟨fun h => ?_, fun h => ⟨f.read_of_gt h, f.write_of_gt v h⟩, fun h => ?_, fun r => ⟨rfl, rfl⟩⟩
  · simp [f.read_of_le h, archReg, regIdx_eq_zero_iff h]
  · exact ⟨_, f.write_of_le v h, f.read_writePort v _, fun q hq => f.read_clock_writePort v h hq⟩

end Sys2Proof.Machine
end

section
/-! SUPPORT. What reset leaves in the banks and in the memories, entry by entry (R54, R58). -/

namespace Sys2Proof.Machine

/-- Entry 0 is hard-wired to 0 in both banks, whatever `INIT_REGS` says (R54). -/
theorem bankGet_ofInit (init : Bank) (r : RegIdx) :
    bankGet (RegFile.ofInit init).committed r = if r = 0 then 0 else bankGet init r := by
  have entry : (0 = r.toNat) ↔ r = 0 := by
    rw [← BitVec.toNat_inj]
    exact eq_comm
  simp only [RegFile.ofInit, bankGet, Vector.getElem_set, entry]

theorem bankGet_replicate (x : Word) (r : RegIdx) : bankGet (Vector.replicate 32 x) r = x := Vector.getElem_replicate ..

@[simp] theorem Memory.readWord_nil (a : Word) : Memory.readWord [] a = 0 := by
  simp [Memory.readWord, wordOfBytes]

theorem Memory.ofImage_cons (k x : Word) (image : List (Word × Word)) :
    Memory.ofImage ((k, x) :: image) = (Memory.ofImage image).writeWord k x := rfl

/-- A loaded memory reads at each word address as the image's first entry for it, and 0 where there is none (R58). -/
theorem Memory.readWord_ofImage {image : List (Word × Word)} (hi : imageKeysAligned image = true) {a : Word}
    (ha : isWordAddress a = true) : (Memory.ofImage image).readWord a = (image.lookup a).getD 0 := by
  induction image with
  | nil => exact Memory.readWord_nil a
  | cons e image ih =>
    obtain ⟨k, x⟩ := e
    obtain ⟨hk, rest⟩ : isWordAddress k = true ∧ imageKeysAligned image = true := by
      simpa [imageKeysAligned] using hi
    have wf := Memory.ofImage_wf image
    rw [Memory.ofImage_cons, List.lookup_cons]
    by_cases h : a = k
    · subst h
      simp [Memory.readWord_writeWord_self wf]
    · simp [Memory.readWord_writeWord_of_ne wf hk ha (Ne.symm h), ih rest, beq_false_of_ne h]

/-- Settles O49: the banks by `bankGet_ofInit`, the memories by `Memory.readWord_ofImage`, the other fields by definition. -/
theorem resetTakesParameters : Obligations.ResetTakesParameters := by
  refine ⟨⟨rfl, bankGet_replicate 0⟩, fun p hp => ?_⟩
  obtain ⟨⟨-, himem⟩, hdmem⟩ : (isWordAddress p.resetPc = true ∧ imageKeysAligned p.imemImage = true) ∧
      imageKeysAligned p.dmemImage = true := by simpa [Params.wellFormed] using hp
  exact ⟨bankGet_ofInit p.initRegs, rfl, rfl, rfl, rfl, rfl, rfl, rfl, rfl, rfl, rfl,
    fun _ ha => ⟨Memory.readWord_ofImage himem ha, Memory.readWord_ofImage hdmem ha⟩⟩

end Sys2Proof.Machine
end

section
/-! SUPPORT. Memory's error: when it is raised, and that it is the cycle's error whatever the younger stages raise
(R205, R276). -/

namespace Sys2Proof.Machine

theorem isWordAddress_eq_false_iff {a : Word} : isWordAddress a = false ↔ a.toNat % 4 ≠ 0 := by
  rw [ne_eq, ← isWordAddress_iff, Bool.not_eq_true]

theorem Opcode.isLoad_or_isStore_iff {o : Opcode} : (o.isLoad || o.isStore) = true ↔ o = .lw ∨ o = .sw := by
  cases o <;> decide

section
variable {s : State} {e : StageError}

/-- Memory raises its one error exactly for LW and SW at an address that is no multiple of 4 (R205, R63). -/
theorem memError_eq_some_iff :
    memError s = some e ↔ ((s.exmem.opcode = .lw ∨ s.exmem.opcode = .sw) ∧ s.exmem.result.toNat % 4 ≠ 0) ∧
      e = ⟨.misalignedAccess s.exmem.result, s.exmem.instNo⟩ := by
  simp only [memError, Option.ite_none_right_eq_some, Option.some.injEq, Bool.and_eq_true, Bool.not_eq_true',
    Opcode.isLoad_or_isStore_iff, isWordAddress_eq_false_iff, eq_comm (a := e)]

/-- Memory's error is reported before Decode's and Fetch's (R276). -/
theorem cycleError_of_memError (v : Option RawFields) (h : memError s = some e) : cycleError v s = some e := by
  rw [cycleError, h]

theorem cycleWith_of_memError (dec : Decoder) (hs : s.frozen = false) (h : memError s = some e) :
    cycleWith dec s = s.raise e :=
  clockCycle_error hs (cycleError_of_memError _ h)

end

/-- Settles O29: Memory's error stops the cycle, and raising it writes the fault record only. -/
theorem misalignedDataAccessRaises : Obligations.MisalignedDataAccessRaises := by
  intro s running access misaligned dec
  exact cycleWith_of_memError dec running (memError_eq_some_iff.mpr ⟨⟨access, misaligned⟩, rfl⟩)

end Sys2Proof.Machine
end

section
/-! SUPPORT. The opcode map by fields: each row as a format with its `op` and `funct`, which words match it, that no
word matches two, and that the encoder undoes its `build`. -/

namespace Sys2Proof

/-! ### Rows of the three formats -/

/-- The test `findRow` makes of each row. -/
def OpcodeRow.Matches (r : OpcodeRow) (w : Word) : Prop := w &&& r.mask = r.pattern

/-- A row of format N: the whole word is fixed (R98). -/
def rowN (mnemonic : String) (op : Code) (i : Instr) : OpcodeRow := ⟨mnemonic, encodeN op, 0xFFFFFFFF, fun _ => i⟩

/-- A row of format R, told by `funct` among those of `op` 1 (R96, R102 to R107). -/
def rowR (mnemonic : String) (funct : Code) (mk : Nat → Nat → Nat → Instr) : OpcodeRow :=
  ⟨mnemonic, encodeR 0x01 funct 0 0 0, 0xFC0007FF, formatR mk⟩

/-- A row of format I, told by `op` alone (R97). -/
def rowI (mnemonic : String) (op : Code) (mk : Nat → Nat → BitVec 16 → Instr) : OpcodeRow :=
  ⟨mnemonic, encodeI op 0 0 0, 0xFC000000, formatI mk⟩

theorem opcodeTable_eq : opcodeTable =
    [rowN "NOP" 0x00 .nop, rowR "ADD" 0x01 .add, rowR "SUB" 0x02 .sub, rowR "AND" 0x03 .and, rowR "OR" 0x04 .or,
      rowR "XOR" 0x05 .xor, rowR "SLT" 0x06 .slt, rowI "ADDI" 0x02 fun rt rs imm => .addi rt rs imm,
      rowI "LW" 0x03 fun rt rs imm => .lw rt imm rs, rowI "SW" 0x04 fun rt rs imm => .sw rt imm rs,
      rowI "BEQ" 0x05 fun rt rs imm => .beq rs rt imm, rowI "BNE" 0x06 fun rt rs imm => .bne rs rt imm,
      rowN "HALT" 0x3F .halt] := rfl

/-! ### A word from its fields -/

section
variable (w : Word)

theorem encodeR_of_fields (hzero : zeroField w = 0) :
    encodeR (opField w) (functField w) (rdField w).toNat (rsField w).toNat (rtField w).toNat = w := by
  have hz := congrArg BitVec.toNat hzero
  have hw := w.isLt
  apply BitVec.eq_of_toNat_eq
  simp only [zeroField, BitVec.ofNat_eq_ofNat, BitVec.toNat_ofNat, toNat_field] at hz
  simp only [encodeR_toNat, opField, functField, rdField, rsField, rtField, toNat_field]
  omega

theorem encodeI_of_fields : encodeI (opField w) (rtField w).toNat (rsField w).toNat (immField w) = w := by
  have hw := w.isLt
  apply BitVec.eq_of_toNat_eq
  simp only [encodeI_toNat, opField, rtField, rsField, immField, toNat_field]
  omega

theorem low11_eq_zeroField_append_functField : w.extractLsb' 0 11 = zeroField w ++ functField w := by
  apply BitVec.eq_of_toNat_eq
  simp only [zeroField, functField, toNat_concat, toNat_field]
  omega

theorem eq_encodeN_iff (op : Code) : w = encodeN op ↔ opField w = op ∧ w.extractLsb' 0 26 = 0 := by
  have hop := op.isLt
  have hw := w.isLt
  simp only [← BitVec.toNat_inj, encodeN_toNat, opField, toNat_field, BitVec.ofNat_eq_ofNat, BitVec.toNat_ofNat]
  omega

/-! ### Which words match a row -/

variable (name : String) (code : Code)

theorem rowN_matches (i : Instr) : (rowN name code i).Matches w ↔ opField w = code ∧ w.extractLsb' 0 26 = 0 := by
  rw [OpcodeRow.Matches, rowN, matches_maskN, eq_encodeN_iff]

theorem rowR_matches (mk : Nat → Nat → Nat → Instr) :
    (rowR name code mk).Matches w ↔ opField w = 0x01 ∧ zeroField w = 0 ∧ functField w = code := by
  have pattern : encodeR 0x01 code 0 0 0 = 0x01#6 ++ 0#15 ++ (0#5 ++ code) := by
    apply BitVec.eq_of_toNat_eq
    simp only [encodeR_toNat, toNat_concat, BitVec.ofNat_eq_ofNat, BitVec.toNat_ofNat]
    omega
  rw [OpcodeRow.Matches, rowR, pattern, matches_maskR, low11_eq_zeroField_append_functField]
  exact and_congr_right fun _ => ⟨concat_inj, fun ⟨hz, hf⟩ => by rw [hz, hf]; rfl⟩

theorem rowI_matches (mk : Nat → Nat → BitVec 16 → Instr) : (rowI name code mk).Matches w ↔ opField w = code := by
  have pattern : encodeI code 0 0 0 = code ++ 0#26 := by
    apply BitVec.eq_of_toNat_eq
    simp only [encodeI_toNat, toNat_concat, BitVec.ofNat_eq_ofNat, BitVec.toNat_ofNat]
    omega
  rw [OpcodeRow.Matches, rowI, pattern, matches_maskI]

end

/-! ### The row a word is decoded by -/

/-- Two rows whose patterns differ in a bit both masks look at share no word. -/
theorem OpcodeRow.Matches.common_bits {r q : OpcodeRow} {w : Word} (hr : r.Matches w) (hq : q.Matches w) :
    r.pattern &&& q.mask = q.pattern &&& r.mask := by
  rw [← hr, ← hq, BitVec.and_assoc, BitVec.and_assoc, BitVec.and_comm r.mask]

/-- No word has two rows: any two patterns differ in a bit both masks look at. -/
theorem row_eq_of_matches {r q : OpcodeRow} (hr : r ∈ opcodeTable) (hq : q ∈ opcodeTable) {w : Word}
    (hrw : r.Matches w) (hqw : q.Matches w) : r = q := by
  have differ : opcodeTable.Pairwise fun r q => r.pattern &&& q.mask ≠ q.pattern &&& r.mask := by decide
  by_contra hne
  have : Std.Symm fun r q : OpcodeRow => r.pattern &&& q.mask ≠ q.pattern &&& r.mask := ⟨fun _ _ => Ne.symm⟩
  exact differ.forall hr hq hne (hrw.common_bits hqw)

theorem findRow_eq_none_iff {w : Word} : findRow w = none ↔ ∀ r ∈ opcodeTable, ¬ r.Matches w := by
  simp [findRow, OpcodeRow.Matches]

theorem findRow_eq_some {w : Word} {r : OpcodeRow} (h : findRow w = some r) : r ∈ opcodeTable ∧ r.Matches w :=
  ⟨List.mem_of_find?_eq_some h, by simpa [OpcodeRow.Matches] using List.find?_some h⟩

theorem findRow_of_matches {w : Word} {r : OpcodeRow} (hr : r ∈ opcodeTable) (hm : r.Matches w) :
    findRow w = some r := by
  cases h : findRow w with
  | none => exact absurd hm (findRow_eq_none_iff.mp h r hr)
  | some q =>
    obtain ⟨hq, hqm⟩ := findRow_eq_some h
    rw [row_eq_of_matches hr hq hm hqm]

theorem decodeWord_of_matches {w : Word} {r : OpcodeRow} (hr : r ∈ opcodeTable) (hm : r.Matches w) :
    decodeWord w = .ok (r.build w) := by
  rw [decodeWord, findRow_of_matches hr hm]

theorem decodeWord_eq_ok {w : Word} {i : Instr} (h : decodeWord w = .ok i) :
    ∃ r ∈ opcodeTable, r.Matches w ∧ r.build w = i := by
  unfold decodeWord at h
  split at h
  · next r hr =>
    obtain ⟨mem, hm⟩ := findRow_eq_some hr
    exact ⟨r, mem, hm, Except.ok.inj h⟩
  · cases h

theorem decodeWord_eq_error_iff {w : Word} :
    decodeWord w = .error (.unknownOpcode w) ↔ ∀ r ∈ opcodeTable, ¬ r.Matches w := by
  rw [← findRow_eq_none_iff, decodeWord]
  cases findRow w <;> simp

/-! ### Decoding an encoded instruction -/

theorem Instr.wellFormed_iff {i : Instr} : i.wellFormed = true ↔ ∀ r ∈ i.registers, r ≤ 31 := by
  simp [Instr.wellFormed, validReg]

/-- A register number below 32 survives its 5-bit field. -/
theorem toNat_regIdx {r : Nat} (h : r ≤ 31) : (BitVec.ofNat 5 r).toNat = r :=
  Nat.mod_eq_of_lt (Nat.lt_succ_of_le h)

section
variable (name : String) {code : Code}

theorem decodeWord_encodeN {i : Instr} (row : rowN name code i ∈ opcodeTable := by simp [opcodeTable_eq]) :
    decodeWord (encodeN code) = .ok i :=
  decodeWord_of_matches row ((rowN_matches ..).mpr ((eq_encodeN_iff _ _).mp rfl))

theorem decodeWord_encodeR {mk : Nat → Nat → Nat → Instr} {rd rs rt : Nat} (h : ∀ r ∈ [rs, rt, rd], r ≤ 31)
    (row : rowR name code mk ∈ opcodeTable := by simp [opcodeTable_eq]) :
    decodeWord (encodeR 0x01 code rd rs rt) = .ok (mk rd rs rt) := by
  obtain ⟨hop, hrs, hrt, hrd, hzero, hfunct⟩ := fields_encodeR 0x01 code rd rs rt
  obtain ⟨hs, ht, hd⟩ : rs ≤ 31 ∧ rt ≤ 31 ∧ rd ≤ 31 := by simpa using h
  rw [decodeWord_of_matches row ((rowR_matches ..).mpr ⟨hop, hzero, hfunct⟩)]
  simp only [rowR, formatR, hrd, hrs, hrt, toNat_regIdx, hs, ht, hd]

theorem decodeWord_encodeI {mk : Nat → Nat → BitVec 16 → Instr} {rt rs : Nat} {imm : BitVec 16}
    (h : ∀ r ∈ [rs, rt], r ≤ 31) (row : rowI name code mk ∈ opcodeTable := by simp [opcodeTable_eq]) :
    decodeWord (encodeI code rt rs imm) = .ok (mk rt rs imm) := by
  obtain ⟨hop, hrs, hrt, himm⟩ := fields_encodeI code rt rs imm
  obtain ⟨hs, ht⟩ : rs ≤ 31 ∧ rt ≤ 31 := by simpa using h
  rw [decodeWord_of_matches row ((rowI_matches ..).mpr hop)]
  simp only [rowI, formatI, hrs, hrt, himm, toNat_regIdx, hs, ht]

end

theorem decodeWord_encode {i : Instr} (wf : i.wellFormed = true) : decodeWord (encode i) = .ok i := by
  have h := Instr.wellFormed_iff.mp wf
  cases i with
  | nop => exact decodeWord_encodeN "NOP"
  | add => exact decodeWord_encodeR "ADD" h
  | sub => exact decodeWord_encodeR "SUB" h
  | and => exact decodeWord_encodeR "AND" h
  | or => exact decodeWord_encodeR "OR" h
  | xor => exact decodeWord_encodeR "XOR" h
  | slt => exact decodeWord_encodeR "SLT" h
  | addi => exact decodeWord_encodeI "ADDI" h
  | lw => exact decodeWord_encodeI "LW" (mk := fun rt rs imm => .lw rt imm rs) h
  | sw => exact decodeWord_encodeI "SW" (mk := fun rt rs imm => .sw rt imm rs) h
  | beq => exact decodeWord_encodeI "BEQ" (mk := fun rt rs imm => .beq rs rt imm) h
  | bne => exact decodeWord_encodeI "BNE" (mk := fun rt rs imm => .bne rs rt imm) h
  | halt => exact decodeWord_encodeN "HALT"

/-- Settles O1: a word by `decodeWord_encode`, and four bytes read back as their word (`Laws.OneWord`). -/
theorem decodeOfEncodeReturnsInstruction : Obligations.DecodeOfEncodeReturnsInstruction := by
  intro i wf
  refine ⟨decodeWord_encode wf, fun rest => ?_⟩
  obtain ⟨b0, b1, b2, b3, bytes, word⟩ := Laws.OneWord.of_word i
  have decoded : decodeWord (wordOfBytes b0 b1 b2 b3) = .ok i := word ▸ decodeWord_encode wf
  simp [bytes, decodeBytes, decoded]

/-! ### Encoding a decoded word -/

theorem toNat_fields_valid (l : List RegIdx) : (l.map BitVec.toNat).all validReg = true := by
  simp only [List.all_map, List.all_eq_true]
  exact fun r _ => decide_eq_true (Nat.le_of_lt_succ r.isLt)

section
variable {name : String} {code : Code} {w : Word}

theorem encodeN_of_matches {i : Instr} (h : (rowN name code i).Matches w) : encodeN code = w :=
  ((eq_encodeN_iff ..).mpr ((rowN_matches ..).mp h)).symm

theorem encodeR_of_matches {mk : Nat → Nat → Nat → Instr} (h : (rowR name code mk).Matches w) :
    encodeR 0x01 code (rdField w).toNat (rsField w).toNat (rtField w).toNat = w := by
  obtain ⟨hop, hzero, hfunct⟩ := (rowR_matches ..).mp h
  rw [← hop, ← hfunct, encodeR_of_fields w hzero]

theorem encodeI_of_matches {mk : Nat → Nat → BitVec 16 → Instr} (h : (rowI name code mk).Matches w) :
    encodeI code (rtField w).toNat (rsField w).toNat (immField w) = w := by
  rw [← (rowI_matches ..).mp h, encodeI_of_fields]

end

/-- Each row builds, from a word that matches it, a well-formed instruction whose encoding is that word. -/
theorem encode_build (w : Word) :
    ∀ r ∈ opcodeTable, r.Matches w → (r.build w).wellFormed = true ∧ encode (r.build w) = w := by
  have three := toNat_fields_valid [rsField w, rtField w, rdField w]
  have two := toNat_fields_valid [rsField w, rtField w]
  simp only [opcodeTable_eq, List.forall_mem_cons]
  exact ⟨fun h => ⟨rfl, encodeN_of_matches h⟩, fun h => ⟨three, encodeR_of_matches h⟩,
    fun h => ⟨three, encodeR_of_matches h⟩, fun h => ⟨three, encodeR_of_matches h⟩,
    fun h => ⟨three, encodeR_of_matches h⟩, fun h => ⟨three, encodeR_of_matches h⟩,
    fun h => ⟨three, encodeR_of_matches h⟩, fun h => ⟨two, encodeI_of_matches h⟩,
    fun h => ⟨two, encodeI_of_matches h⟩, fun h => ⟨two, encodeI_of_matches h⟩,
    fun h => ⟨two, encodeI_of_matches h⟩, fun h => ⟨two, encodeI_of_matches h⟩,
    fun h => ⟨rfl, encodeN_of_matches h⟩, List.forall_mem_nil _⟩

/-- Settles O2: whichever row the word matches, its operands are 5-bit fields and put the word together again. -/
theorem encodeOfDecodeReturnsWord : Obligations.EncodeOfDecodeReturnsWord := by
  intro w i h
  obtain ⟨r, mem, hm, rfl⟩ := decodeWord_eq_ok h
  exact encode_build w r mem hm

/-- Settles O3: a word is unknown when it matches no row, which leaves in each range of `op` the group R116 names. -/
theorem unknownWordsAreExactlyTheReserved : Obligations.UnknownWordsAreExactlyTheReserved := by
  intro w
  have hop := (opField w).isLt
  have ranges : (opField w).toNat = 0 ∨ (opField w).toNat = 1 ∨ (2 ≤ (opField w).toNat ∧ (opField w).toNat ≤ 6) ∨
      (7 ≤ (opField w).toNat ∧ (opField w).toNat ≤ 62) ∨ (opField w).toNat = 63 := by
    omega
  simp only [decodeWord_eq_error_iff, opcodeTable_eq, List.forall_mem_cons, List.not_mem_nil, false_implies,
    implies_true, and_true, rowN_matches, rowR_matches, rowI_matches, ← BitVec.toNat_inj, BitVec.ofNat_eq_ofNat,
    BitVec.toNat_ofNat, ne_eq]
  rcases ranges with h | h | h | h | h
  · simp [h]
  · simp [h]; omega
  · omega
  · omega
  · simp [h]

/-- Settles O4: the nine fixed words, evaluated. -/
theorem workedWordsEncodeAndDecode : Obligations.WorkedWordsEncodeAndDecode := by
  unfold Obligations.WorkedWordsEncodeAndDecode
  decide

end Sys2Proof
end

section
/-! SUPPORT. What a record of `REFDEC` can be (R100), and `sext_32` as bit 15 copied upward (R99). -/

namespace Sys2Proof.Machine

/-- The `funct` values 1 to 6 are values of `aluOp` (R94). -/
theorem exists_aluOp_code {c : Code} (h1 : 1 ≤ c.toNat) (h6 : c.toNat ≤ 6) : ∃ a : AluOp, a.code = c := by
  have listed : ∀ c : Code, 1 ≤ c.toNat → c.toNat ≤ 6 → ∃ a ∈ [AluOp.add, .sub, .and, .or, .xor, .slt], a.code = c := by
    decide
  obtain ⟨a, -, ha⟩ := listed c h1 h6
  exact ⟨a, ha⟩

/-- Every record of `REFDEC` is made of members of the enums and 5-bit indices, names a destination only for a class
that writes a register, and has an immediate in format I only. -/
theorem refdec_record {w : Word} {f : RawFields} (h : refdec w = some f) :
    ∃ (o : Opcode) (a : AluOp) (src1 src2 dest : RegIdx), (o.writesReg = false → dest = 0) ∧
      f = ⟨o.code, a.code, src1.toNat, src2.toNat, dest.toNat,
        if 2 ≤ (opField w).toNat ∧ (opField w).toNat ≤ 6 then sext32 (immField w) else 0⟩ := by
  unfold refdec at h
  dsimp only at h
  split at h
  · next hw => cases h; subst hw; exact ⟨.nop, .none, 0, 0, 0, fun _ => rfl, rfl⟩
  split at h
  · cases h
  split at h
  · next hop =>
    split at h
    · next hfields =>
      cases h
      obtain ⟨-, h1, h6⟩ := hfields
      obtain ⟨a, ha⟩ := exists_aluOp_code h1 h6
      exact ⟨.alur, a, rsField w, rtField w, rdField w, nofun, by simp [fieldsR, ha, hop]⟩
    · cases h
  split at h
  · next hop => cases h; exact ⟨.addi, .add, rsField w, 0, rtField w, nofun, by simp [fieldsLoadImm, hop]⟩
  split at h
  · next hop => cases h; exact ⟨.lw, .add, rsField w, 0, rtField w, nofun, by simp [fieldsLoadImm, hop]⟩
  split at h
  · next hop => cases h; exact ⟨.sw, .add, rsField w, rtField w, 0, fun _ => rfl, by simp [fieldsStore, hop]⟩
  split at h
  · next hop => cases h; exact ⟨.beq, .sub, rsField w, rtField w, 0, fun _ => rfl, by simp [fieldsBranch, hop]⟩
  split at h
  · next hop => cases h; exact ⟨.bne, .sub, rsField w, rtField w, 0, fun _ => rfl, by simp [fieldsBranch, hop]⟩
  split at h
  · next hw => cases h; subst hw; exact ⟨.halt, .none, 0, 0, 0, fun _ => rfl, rfl⟩
  · cases h

theorem sext32_eq_ite (imm : BitVec 16) :
    sext32 imm = if imm[15] = false then imm.zeroExtend 32 else 0xFFFF0000 + imm.zeroExtend 32 := by
  have msb : imm.msb = imm[15] := BitVec.msb_eq_getMsbD_zero imm
  split
  · next h => exact BitVec.signExtend_eq_setWidth_of_msb_false (msb.trans h)
  · next h =>
    apply BitVec.eq_of_toNat_eq
    simp [sext32, BitVec.toNat_signExtend, msb, h]
    omega

/-- Indices that come from 5-bit fields pass the Decode stage's check as they are (R115). -/
theorem checkFields_regIdx (word : Word) (o : Opcode) (a : AluOp) (src1 src2 dest : RegIdx) (imm : Word) :
    checkFields word (some ⟨o.code, a.code, src1.toNat, src2.toNat, dest.toNat, imm⟩) =
      .ok ⟨o, a, src1, src2, dest, imm⟩ := by
  rw [checkFields_ok word o a imm (Nat.le_of_lt_succ src1.isLt) (Nat.le_of_lt_succ src2.isLt)
    (Nat.le_of_lt_succ dest.isLt)]
  simp

/-- `REFDEC` meets the contract: each of its records is one the Decode stage's check passes (`refdec_record`). -/
theorem refdec_contract : DecodeContract refdec where
  zeroWord := refdec_zero
  members w f h := by
    obtain ⟨o, a, src1, src2, dest, -, rfl⟩ := refdec_record h
    exact ⟨_, checkFields_regIdx w o a src1 src2 dest _⟩
  noDest w f d h hd noWrite := by
    obtain ⟨o, a, src1, src2, dest, noDest, rfl⟩ := refdec_record h
    rw [checkFields_regIdx] at hd
    cases hd
    exact noDest noWrite

/-- Settles O5: the contract by `refdec_contract`, the immediate by `refdec_record`. -/
theorem referenceDecoderMeetsContract : Obligations.ReferenceDecoderMeetsContract := by
  refine ⟨refdec_contract, fun w f h => ⟨?_, sext32_eq_ite⟩⟩
  obtain ⟨o, a, src1, src2, dest, -, rfl⟩ := refdec_record h
  rfl

end Sys2Proof.Machine
end

section
/-! SUPPORT. The operands Execute works on: the forwarding multiplexers give each needed register as the older
instructions leave it (R240, R261), so the branch outcome and the ALU result are those of sequential execution. -/

namespace Sys2Proof.Machine

/-! ### Reading a bank after a producer's write -/

/-- A class that writes a register writes its destination; a write to register 0 is discarded anyway (R232). -/
theorem ite_produces_of_writesReg {o : Opcode} (h : o.writesReg = true) (r : RegIdx) (b : Bank) (x : Word) :
    (if produces o r then bankSet b r x else b) = bankSet b r x := by
  by_cases hr : r = 0#5
  · simp [hr]
  · simp [produces, h, hr]

theorem archReg_ite_produces (o : Opcode) (r q : RegIdx) (b : Bank) (x : Word) :
    archReg (if produces o r then bankSet b r x else b) q = if produces o r ∧ r = q then x else archReg b q := by
  cases hp : produces o r with
  | false => simp
  | true => simp [archReg_bankSet, produces_ne_zero hp, eq_comm (a := q)]

/-! ### The forwarding multiplexers -/

section
variable {s : State}

/-- A needed operand that was latched as the committed register comes out as the register after Writeback and Memory,
provided no load in Memory is about to load it (R240 to R242). -/
theorem forward_eq_archReg {r : RegIdx} {x : Word} (fresh : x = s.regs.readPort r)
    (separated : s.exmem.opcode = .lw → s.exmem.destReg ≠ 0 → s.exmem.destReg ≠ r) :
    forward s r x true = archReg s.regsAfterMem r := by
  by_cases hr : r = 0#5
  · subst hr
    simp [forward, fresh]
  have needed : (true && r != 0#5) = true := by simpa using hr
  rw [State.regsAfterMem, archReg_ite_produces, State.regsAfterWb, archReg_ite_produces, ← RegFile.readPort_eq_archReg,
    ← fresh]
  unfold forward
  by_cases fromMem : produces s.exmem.opcode s.exmem.destReg = true ∧ s.exmem.destReg = r
  · obtain ⟨hp, rfl⟩ := fromMem
    have noLoad : s.exmem.opcode ≠ .lw := fun load => separated load hr rfl
    simp [needed, hp, noLoad]
  · rw [if_neg fromMem, if_neg (by simp_all)]
    simp only [needed, Bool.true_and, Bool.and_eq_true, beq_iff_eq]

theorem operandA_eq_seqA (inv : s.PipelineInv) (uses : s.idex.opcode.uses1 = true) : operandA s = s.seqA := by
  obtain ⟨-, -, -, separated, -, -, ⟨fresh, -⟩, -⟩ := inv
  rw [operandA, uses]
  refine forward_eq_archReg (fresh uses) fun load dest same => ?_
  simpa [Opcode.needs, uses, same] using separated load dest

theorem operandB_eq_seqB (inv : s.PipelineInv) (uses : s.idex.opcode.uses2 = true) : operandB s = s.seqB := by
  obtain ⟨-, -, -, separated, -, -, ⟨-, fresh⟩, -⟩ := inv
  rw [operandB, uses]
  refine forward_eq_archReg (fresh uses) fun load dest same => ?_
  simpa [Opcode.needs, uses, same] using separated load dest

/-- The branch in Execute is decided as sequential execution decides it. -/
theorem flushSignal_eq (inv : s.PipelineInv) : flushSignal s = branchTaken s.idex.opcode s.seqA s.seqB := by
  have hA := operandA_eq_seqA inv
  have hB := operandB_eq_seqB inv
  unfold flushSignal
  cases ho : s.idex.opcode with
  | beq | bne =>
    rw [ho] at hA hB
    rw [hA rfl, hB rfl]
  | nop | alur | addi | lw | sw | halt => rfl

/-- The ALU's second input of an instruction with a source is a source too, unless it is the immediate (R93). -/
theorem uses2_of_uses1 {o : Opcode} (h : o.uses1 = true) (noImm : o.usesImm = false) : o.uses2 = true := by
  cases o with
  | alur | beq | bne => rfl
  | addi | lw | sw => cases noImm
  | nop | halt => cases h

/-- An instruction with a source computes what it computes sequentially. -/
theorem exmemNext_result (inv : s.PipelineInv) (uses : s.idex.opcode.uses1 = true) :
    (exmemNext s).result = s.seqResult := by
  have secondInput : aluInputB s = if s.idex.opcode.usesImm then s.idex.immediate else s.seqB := by
    unfold aluInputB
    split
    · rfl
    · next noImm => exact operandB_eq_seqB inv (uses2_of_uses1 uses (by simpa using noImm))
  simp only [exmemNext, State.seqResult, operandA_eq_seqA inv uses, secondInput]

end

end Sys2Proof.Machine
end

section
/-! SUPPORT. How the architectural view moves on in one cycle: each instruction in flight is one stage nearer to the
registers and to data memory, and what it will leave there stays the same (R139, R326). -/

namespace Sys2Proof.Machine

/-- `t` is `s` one cycle on, as far as the instructions in Execute, Memory and Writeback go: what was to be there after a
stage is there after the next one. -/
structure State.Advances (s t : State) : Prop where
  committed : t.regs.committed = s.regsAfterWb
  dmem : t.dmem = s.dmemAfterMem
  regsAfterWb : t.regsAfterWb = s.regsAfterMem
  regsAfterMem : t.regsAfterMem = s.regsAfterEx
  dmemAfterMem : t.dmemAfterMem = s.dmemAfterEx

section
variable {s : State} {v : Option RawFields}

theorem dmemNext_eq (s : State) : dmemNext s = s.dmemAfterMem := by
  unfold dmemNext dmemWrite State.dmemAfterMem
  cases s.exmem.opcode <;> rfl

theorem memResult_eq (s : State) :
    memResult s = if s.exmem.opcode = .lw then s.dmem.readWord s.exmem.result else s.exmem.result := by
  unfold memResult
  cases s.exmem.opcode <;> rfl

theorem uses1_of_writesReg {o : Opcode} (h : o.writesReg = true) : o.uses1 = true := by
  cases o with
  | alur | addi | lw => rfl
  | nop | sw | beq | bne | halt => cases h

theorem writesReg_of_produces {o : Opcode} {r : RegIdx} (h : produces o r = true) : o.writesReg = true :=
  (Bool.and_eq_true_iff.mp h).1

/-- A clock edge moves every instruction in flight one stage on. -/
theorem State.commit_advances (inv : s.PipelineInv) (v : Option RawFields) : s.Advances (s.commit v) := by
  have ⟨_, ⟨banks, _⟩, _⟩ := inv
  have committed : (s.commit v).regs.committed = s.regsAfterWb := regsNext_committed banks
  have dmem : (s.commit v).dmem = s.dmemAfterMem := dmemNext_eq s
  have regsAfterWb : (s.commit v).regsAfterWb = s.regsAfterMem := by
    rw [State.regsAfterWb, committed, State.commit_memwb, memwbNext, memResult_eq]
    rfl
  refine ⟨committed, dmem, regsAfterWb, ?_, ?_⟩
  · rw [State.regsAfterMem, regsAfterWb, dmem, State.commit_exmem, State.regsAfterEx]
    change (if produces s.idex.opcode s.idex.destReg then _ else _) = _
    split
    · next hp =>
      rw [exmemNext_result inv (uses1_of_writesReg (writesReg_of_produces hp))]
      rfl
    · rfl
  · rw [State.dmemAfterMem, dmem, State.commit_exmem, State.dmemAfterEx]
    change (if s.idex.opcode = .sw then _ else _) = _
    split
    · next store =>
      rw [exmemNext_result inv (by rw [store]; rfl), exmemNext, operandB_eq_seqB inv (by rw [store]; rfl)]
    · rfl

/-- On a halted machine nothing is in flight, so nothing is left to move. -/
theorem State.advances_of_halted (inv : s.PipelineInv) (h : s.halted = true) : s.Advances s := by
  obtain ⟨-, -, -, -, -, ⟨-, -, -, drained⟩, -, -⟩ := inv
  obtain ⟨idex, exmem, memwb⟩ := drained h
  have afterWb : s.regsAfterWb = s.regs.committed := by simp [State.regsAfterWb, memwb]
  have afterMem : s.regsAfterMem = s.regs.committed := by simp [State.regsAfterMem, exmem, afterWb]
  have dmemAfterMem : s.dmemAfterMem = s.dmem := by simp [State.dmemAfterMem, exmem]
  exact ⟨afterWb.symm, dmemAfterMem.symm, afterWb.trans afterMem.symm, by simp [State.regsAfterEx, idex],
    by simp [State.dmemAfterEx, idex]⟩

theorem clockCycle_advances (inv : s.PipelineInv) (noFault : (clockCycle v s).fault = none) :
    s.Advances (clockCycle v s) := by
  rcases clockCycle_cases v s with ⟨frozen, h⟩ | ⟨e, -, -, h⟩ | ⟨-, -, h⟩
  · rw [h] at noFault ⊢
    exact State.advances_of_halted inv (by simpa [State.frozen, noFault] using frozen)
  · rw [h] at noFault
    cases noFault
  · rw [h]
    exact State.commit_advances inv v

end

end Sys2Proof.Machine
end

section
/-! SUPPORT. The pipeline's invariant (R216) over one cycle, conjunct by conjunct, for any decoder's answer that keeps the
contract of R91 for the word in Decode. -/

namespace Sys2Proof.Machine

/-- What the invariant asks of the decoder's answer for the word in Decode: R91 (c), and the zero word's record for the
zero word of an empty IF/ID (R91 (a)). -/
structure KeepsContract (v : Option RawFields) (s : State) : Prop where
  noDest : ∀ d, decodeResult v s = .ok d → d.opcode.writesReg = false → d.destReg = 0
  emptyWord : s.ifid = IfId.bubble → v = some (fieldsN .nop)

section
variable {s : State} {v : Option RawFields}

/-! ### What Decode hands on -/

/-- ID/EX receives a bubble, or the checked record of a word that is neither squashed nor held (R194). -/
theorem idexNext_cases (v : Option RawFields) (s : State) :
    idexNext v s = IdEx.bubble ∨
    ∃ d, flushSignal s = false ∧ stallSignal v s = false ∧ decodeResult v s = .ok d ∧ idexNext v s = issued d s := by
  unfold idexNext
  split
  · exact .inl rfl
  split
  · exact .inl rfl
  next noFlush noStall =>
  split
  · exact .inl rfl
  · next d hd => exact .inr ⟨d, by simpa using noFlush, by simpa using noStall, hd, rfl⟩

theorem idexNext_issued {d : Decoded} (noFlush : flushSignal s = false) (noStall : stallSignal v s = false)
    (hd : decodeResult v s = .ok d) : idexNext v s = issued d s := by
  simp [idexNext, noFlush, noStall, hd]

theorem idexNext_of_empty (contract : KeepsContract v s) (h : s.ifid = IfId.bubble) : idexNext v s = IdEx.bubble := by
  rw [contract.emptyWord h]
  exact idexNext_bubble h _ rfl

theorem haltDec_eq_true_iff :
    haltDec v s = true ↔ flushSignal s = false ∧ ∃ d, decodeResult v s = .ok d ∧ d.opcode = .halt := by
  unfold haltDec
  cases decodeResult v s <;> simp

/-- A HALT needs no register, so it is never held (R172). -/
theorem stallSignal_of_haltDec (h : haltDec v s = true) : stallSignal v s = false := by
  obtain ⟨-, d, hd, halt⟩ := haltDec_eq_true_iff.mp h
  simp [stallSignal, hd, loadUse, halt, Opcode.needs, Opcode.uses1, Opcode.uses2]

theorem idexNext_halt_iff : (idexNext v s).opcode = .halt ↔ haltDec v s = true := by
  constructor
  · intro h
    rcases idexNext_cases v s with empty | ⟨d, noFlush, -, hd, issue⟩
    · rw [empty] at h
      cases h
    · rw [issue] at h
      exact haltDec_eq_true_iff.mpr ⟨noFlush, d, hd, h⟩
  · intro h
    obtain ⟨noFlush, d, hd, halt⟩ := haltDec_eq_true_iff.mp h
    rw [idexNext_issued noFlush (stallSignal_of_haltDec h) hd]
    exact halt

/-- The fetch stops when a HALT is decoded, and stays stopped unless a branch restarts it (R186, R195). -/
theorem fetchStoppedNext_eq (v : Option RawFields) (s : State) :
    fetchStoppedNext v s = (s.fetchStopped || haltDec v s) := by
  rcases fetchRow_cases v s with ⟨row, flush⟩ | ⟨row, -, stall⟩ | ⟨row, -, -, stop⟩ | ⟨row, -, -, running, noHalt⟩
  · have noHalt : haltDec v s = false := by simp [haltDec, flush]
    simp [fetchStoppedNext, row, noHalt]
  · have noHalt : haltDec v s = false := by
      by_contra h
      rw [stallSignal_of_haltDec (by simpa using h)] at stall
      cases stall
    simp [fetchStoppedNext, row, noHalt]
  · simpa [fetchStoppedNext, row] using stop
  · simp [fetchStoppedNext, row, running, noHalt]

/-! ### The conjuncts -/

theorem commit_pcAligned (aligned : s.PcAligned) (noError : cycleError v s = none) : (s.commit v).PcAligned := by
  obtain ⟨pc, ifid, idex⟩ := aligned
  obtain ⟨-, -, noFetchError⟩ := cycleError_eq_none.mp noError
  have four : isWordAddress 4 = true := by decide
  have nextIdex : isWordAddress (idexNext v s).pc = true := by
    rcases idexNext_cases v s with h | ⟨d, -, -, -, h⟩ <;> rw [h]
    · decide
    · exact ifid
  rcases fetchRow_cases v s with ⟨row, -⟩ | ⟨row, -⟩ | ⟨row, -⟩ | ⟨row, -⟩ <;>
    simp only [State.PcAligned, State.commit_pc, State.commit_ifid, State.commit_idex, pcNext, ifidNext, row]
  · exact ⟨isWordAddress_add (isWordAddress_add idex four) (isWordAddress_shiftLeft _), by decide, nextIdex⟩
  · exact ⟨pc, ifid, nextIdex⟩
  · exact ⟨pc, by decide, nextIdex⟩
  · exact ⟨isWordAddress_add pc four, pc, nextIdex⟩

theorem commit_banksAgree (banks : s.BanksAgree) (v : Option RawFields) : (s.commit v).BanksAgree := by
  obtain ⟨agree, zero⟩ := banks
  refine ⟨regsNext_pending s, ?_⟩
  rw [State.commit_regs, regsNext_committed agree, State.regsAfterWb]
  split
  · exact (bankGet_bankSet_at_zero ..).trans zero
  · exact zero

theorem commit_noStrayDest (stray : s.NoStrayDest) (contract : KeepsContract v s) : (s.commit v).NoStrayDest := by
  obtain ⟨idex, exmem, -⟩ := stray
  refine ⟨?_, idex, exmem⟩
  rw [State.commit_idex]
  rcases idexNext_cases v s with h | ⟨d, -, -, hd, h⟩ <;> rw [h]
  · exact fun _ => rfl
  · exact contract.noDest d hd

/-- The word that goes to Execute did not stall, so it does not need what a load ahead of it loads (R250, R252). -/
theorem commit_loadSeparated (v : Option RawFields) (s : State) : (s.commit v).LoadSeparated := by
  intro load dest
  rw [State.commit_idex]
  rcases idexNext_cases v s with h | ⟨d, noFlush, noStall, hd, h⟩ <;> rw [h]
  · rfl
  · have load : s.idex.opcode = .lw := load
    have dest : s.idex.destReg ≠ 0#5 := dest
    have clear : d.opcode.needs d.src1Reg d.src2Reg s.idex.destReg = false := by
      simpa [stallSignal, noFlush, hd, loadUse, load, dest] using noStall
    exact clear

theorem commit_stopQuiet (quiet : s.StopQuiet) (contract : KeepsContract v s) : (s.commit v).StopQuiet := by
  intro stopped
  rw [State.commit_fetchStopped, fetchStoppedNext_eq, Bool.or_eq_true] at stopped
  rw [State.commit_ifid, State.commit_idex]
  rcases stopped with stopped | halt
  · obtain ⟨empty, -⟩ := quiet stopped
    refine ⟨?_, by rw [idexNext_of_empty contract empty]; rfl⟩
    rcases fetchRow_cases v s with ⟨row, -⟩ | ⟨row, -⟩ | ⟨row, -⟩ | ⟨-, -, -, running, -⟩
    · simp only [ifidNext, row]
    · simp only [ifidNext, row, empty]
    · simp only [ifidNext, row]
    · rw [stopped] at running
      cases running
  · have noStall := stallSignal_of_haltDec halt
    obtain ⟨noFlush, -⟩ := haltDec_eq_true_iff.mp halt
    refine ⟨by simp [ifidNext, fetchRow, noFlush, noStall, halt], ?_⟩
    rw [idexNext_halt_iff.mpr halt]
    rfl

theorem commit_haltDrains (drains : s.HaltDrains) (quiet : s.StopQuiet) (contract : KeepsContract v s) :
    (s.commit v).HaltDrains := by
  obtain ⟨inFlight, ex, mem, done⟩ := drains
  have emptyDecode (stopped : s.fetchStopped = true) : idexNext v s = IdEx.bubble :=
    idexNext_of_empty contract (quiet stopped).1
  refine ⟨?_, fun halt => ?_, fun halt => ?_, fun halted => ?_⟩
  · change fetchStoppedNext v s = true ↔
      (idexNext v s).opcode = .halt ∨ s.idex.opcode = .halt ∨ s.exmem.opcode = .halt ∨ haltedNext s = true
    rw [fetchStoppedNext_eq, Bool.or_eq_true, idexNext_halt_iff, inFlight, haltedNext, Bool.or_eq_true, beq_iff_eq]
    simp only [or_comm, or_left_comm, or_assoc]
  · exact emptyDecode (inFlight.mpr (.inl halt))
  · have halt : s.exmem.opcode = .halt := halt
    exact ⟨emptyDecode (inFlight.mpr (.inr (.inl halt))), exmemNext_bubble (ex halt)⟩
  · have halted : s.halted = true ∨ s.memwb.opcode = .halt := by simpa [haltedNext] using halted
    have stopped : s.fetchStopped = true := inFlight.mpr (by rcases halted with h | h <;> simp [h])
    obtain ⟨idex, exmem⟩ : s.idex = IdEx.bubble ∧ s.exmem = ExMem.bubble :=
      halted.elim (fun h => ⟨(done h).1, (done h).2.1⟩) mem
    exact ⟨emptyDecode stopped, exmemNext_bubble idex, memwbNext_bubble exmem⟩

/-- Decode latches the registers as this clock edge leaves them, by the Writeback bypass (R246). -/
theorem commit_operandsFresh (banks : s.BanksAgree) (v : Option RawFields) : (s.commit v).OperandsFresh := by
  have port (r : RegIdx) : (s.commit v).regs.readPort r = bypass s r true := by
    rw [bypass_eq, RegFile.readPort_eq_archReg, State.commit_regs, regsNext_committed banks.1]
  simp only [State.OperandsFresh, port, State.commit_idex]
  rcases idexNext_cases v s with h | ⟨d, -, -, -, h⟩ <;> rw [h]
  · exact ⟨nofun, nofun⟩
  · exact ⟨fun uses => congrArg (bypass s d.src1Reg) uses, fun uses => congrArg (bypass s d.src2Reg) uses⟩

theorem commit_fetchFollows (follows : s.FetchFollows) (v : Option RawFields) : (s.commit v).FetchFollows := by
  rcases fetchRow_cases v s with ⟨row, -⟩ | ⟨row, -⟩ | ⟨row, -⟩ | ⟨row, -⟩ <;>
    simp only [State.FetchFollows, State.commit_pc, State.commit_ifid, pcNext, ifidNext, row]
  · exact .inl trivial
  · exact follows
  · exact .inl trivial
  · exact .inr rfl

/-! ### The invariant -/

theorem commit_keeps_pipelineInv (inv : s.PipelineInv) (contract : KeepsContract v s) (noError : cycleError v s = none) :
    (s.commit v).PipelineInv := by
  obtain ⟨aligned, banks, stray, -, quiet, drains, -, follows⟩ := inv
  exact ⟨commit_pcAligned aligned noError, commit_banksAgree banks v, commit_noStrayDest stray contract,
    commit_loadSeparated v s, commit_stopQuiet quiet contract, commit_haltDrains drains quiet contract,
    commit_operandsFresh banks v, commit_fetchFollows follows v⟩

theorem clockCycle_keeps_pipelineInv (inv : s.PipelineInv) (contract : KeepsContract v s) : (clockCycle v s).PipelineInv := by
  rcases clockCycle_cases v s with ⟨-, h⟩ | ⟨e, -, -, h⟩ | ⟨-, noError, h⟩ <;> rw [h]
  · exact inv
  · exact inv
  · exact commit_keeps_pipelineInv inv contract noError

end

/-! ### The step's own decoder keeps the contract -/

theorem checkFields_eq_ok {word : Word} {f : RawFields} {d : Decoded} (h : checkFields word (some f) = .ok d) :
    Opcode.ofCode f.opcode = some d.opcode ∧ d.destReg = BitVec.ofNat 5 f.destReg := by
  unfold checkFields at h
  dsimp only at h
  split at h
  · next o a ho _ =>
    split at h
    · cases h
    · cases h
      exact ⟨ho, rfl⟩
  · cases h
  · cases h
  · cases h

/-- Each meaning is one clock cycle, with a record that names a destination only where it writes a register, and the zero
word's record for NOP. -/
theorem exec_is_contract_cycle (i : Instr) : ∃ f : RawFields, (∀ s, exec i s = .next (clockCycle (some f) s)) ∧
    (∀ word d, checkFields word (some f) = .ok d → d.opcode.writesReg = false → d.destReg = 0) ∧
    (i = .nop → f = fieldsN .nop) := by
  have writes {f : RawFields} (o : Opcode) (hf : f.opcode = o.code) (ho : o.writesReg = true) (word : Word) (d : Decoded)
      (h : checkFields word (some f) = .ok d) (noWrite : d.opcode.writesReg = false) : d.destReg = 0 := by
    have opcode := (checkFields_eq_ok h).1
    rw [hf, Opcode.ofCode_code] at opcode
    cases opcode
    rw [ho] at noWrite
    cases noWrite
  have noDest {f : RawFields} (hf : f.destReg = 0) (word : Word) (d : Decoded)
      (h : checkFields word (some f) = .ok d) (_ : d.opcode.writesReg = false) : d.destReg = 0 := by
    rw [(checkFields_eq_ok h).2, hf]
    rfl
  cases i with
  | nop => exact ⟨_, fun _ => rfl, noDest rfl, fun _ => rfl⟩
  | add | sub | and | or | xor | slt => exact ⟨_, fun _ => rfl, writes .alur rfl rfl, nofun⟩
  | addi => exact ⟨_, fun _ => rfl, writes .addi rfl rfl, nofun⟩
  | lw => exact ⟨_, fun _ => rfl, writes .lw rfl rfl, nofun⟩
  | sw | beq | bne | halt => exact ⟨_, fun _ => rfl, noDest rfl, nofun⟩

theorem step_is_contract_cycle (s : State) : ∃ v, KeepsContract v s ∧ step s = .next (clockCycle v s) := by
  have word (h : s.ifid = IfId.bubble) : decodeWord s.ifid.instruction = .ok .nop := by
    rw [h, IfId.bubble_instruction, decodeWord_zero]
  cases hw : decodeWord s.ifid.instruction with
  | ok i =>
    obtain ⟨f, cycle, noDest, nop⟩ := exec_is_contract_cycle i
    refine ⟨some f, ⟨noDest _, fun h => ?_⟩, by rw [step, hw, ← cycle]⟩
    have isNop := hw.symm.trans (word h)
    cases isNop
    rw [nop rfl]
  | error e =>
    refine ⟨none, ⟨nofun, fun h => ?_⟩, by rw [step, hw, execUnknown]⟩
    have := hw.symm.trans (word h)
    cases this

theorem step_keeps_pipelineInv {s t : State} (inv : s.PipelineInv) (h : step s = .next t) : t.PipelineInv := by
  obtain ⟨v, contract, cycle⟩ := step_is_contract_cycle s
  cases cycle.symm.trans h
  exact clockCycle_keeps_pipelineInv inv contract

end Sys2Proof.Machine
end

section
/-! SUPPORT. When the effects in flight are in `committed` and `DMEM`: three and two cycles on, unless an error stops the
machine first (R139, R326). -/

namespace Sys2Proof.Machine

section
variable {s t u : State}

theorem step_advances (inv : s.PipelineInv) (h : step s = .next t) (noFault : t.fault = none) : s.Advances t := by
  obtain ⟨v, cycle⟩ := step_is_cycle s
  cases cycle.symm.trans h
  exact clockCycle_advances inv noFault

theorem step_of_frozen (h : s.frozen = true) : step s = .next s := by
  obtain ⟨v, cycle⟩ := step_is_cycle s
  rw [cycle, clockCycle_frozen h]

theorem run_of_frozen (h : s.frozen = true) (n : Nat) : core.run n s = .next s := by
  induction n with
  | zero => rfl
  | succ n ih => rw [run_succ_of_step n (step_of_frozen h), ih]

/-- A run that ends without a fault met none in its first step either (R277). -/
theorem run_succ_of_no_fault {n : Nat} (h : core.run (n + 1) s = .next u) (noFault : u.fault = none) :
    ∃ t, step s = .next t ∧ t.fault = none ∧ core.run n t = .next u := by
  obtain ⟨t, first⟩ := step_answers_next s
  rw [run_succ_of_step n first] at h
  refine ⟨t, first, ?_, h⟩
  by_contra fault
  have frozen : t.frozen = true := by simp [State.frozen, Option.isSome_iff_ne_none.mpr fault]
  cases (run_of_frozen frozen n).symm.trans h
  exact fault noFault

theorem run_two_dmem (inv : s.PipelineInv) (h : core.run 2 s = .next u) (noFault : u.fault = none) :
    u.dmem = s.arch.dmem := by
  obtain ⟨t, h1, noFault1, h⟩ := run_succ_of_no_fault h noFault
  obtain ⟨_, h2, noFault2, h⟩ := run_succ_of_no_fault h noFault
  cases h
  calc
    _ = t.dmemAfterMem := (step_advances (step_keeps_pipelineInv inv h1) h2 noFault2).dmem
    _ = s.dmemAfterEx := (step_advances inv h1 noFault1).dmemAfterMem

theorem run_three_committed (inv : s.PipelineInv) (h : core.run 3 s = .next u) (noFault : u.fault = none) :
    u.regs.committed = s.arch.regs := by
  obtain ⟨t1, h1, noFault1, h⟩ := run_succ_of_no_fault h noFault
  obtain ⟨t2, h2, noFault2, h⟩ := run_succ_of_no_fault h noFault
  obtain ⟨_, h3, noFault3, h⟩ := run_succ_of_no_fault h noFault
  cases h
  have inv1 := step_keeps_pipelineInv inv h1
  calc
    _ = t2.regsAfterWb := (step_advances (step_keeps_pipelineInv inv1 h2) h3 noFault3).committed
    _ = t1.regsAfterMem := (step_advances inv1 h2 noFault2).regsAfterWb
    _ = s.regsAfterEx := (step_advances inv h1 noFault1).regsAfterMem

end

end Sys2Proof.Machine
end

section
/-! SUPPORT. The cycle in which the word in Decode goes to Execute: what `State.accepts` gives, and that the view takes the
record's sequential effect (R217, R218). -/

namespace Sys2Proof.Machine

/-! ### The effect of a record as one update -/

/-- What the ALU computes for a record in a sequential state. -/
def Decoded.result (d : Decoded) (a : ArchState) : Word :=
  alu d.aluOp (a.read d.src1Reg) (if d.opcode.usesImm then d.immediate else a.read d.src2Reg)

/-- A sequential state with a record's effect, written as the view writes it: one expression for every opcode, in which
a misaligned address is not looked at. -/
def Decoded.after (d : Decoded) (a : ArchState) : ArchState where
  pc := if d.takesBranch a then branchTarget a.pc d.immediate else a.pc + 4
  regs :=
    if produces d.opcode d.destReg then
      bankSet a.regs d.destReg (if d.opcode = .lw then a.dmem.readWord (d.result a) else d.result a)
    else a.regs
  dmem := if d.opcode = .sw then a.dmem.writeWord (d.result a) (a.read d.src2Reg) else a.dmem

/-- For a class that writes a register, that is a write of the destination and nothing else. -/
theorem after_of_writesReg {d : Decoded} {a : ArchState} (h : d.opcode.writesReg = true) :
    d.after a =
      a.write d.destReg (if d.opcode = .lw then a.dmem.readWord (d.result a) else d.result a) := by
  obtain ⟨op, aluOp, src1, src2, dest, imm⟩ := d
  rw [Decoded.after, ite_produces_of_writesReg h]
  cases op with
  | alur | addi | lw => rfl
  | nop | sw | beq | bne | halt => cases h

/-- Where the reference machine goes on, it goes on to that state. -/
theorem after_of_seqEffect {d : Decoded} {a a' : ArchState} (h : seqEffect d a = .next a') : d.after a = a' := by
  obtain ⟨op, aluOp, src1, src2, dest, imm⟩ := d
  cases op with
  | nop => cases h; rfl
  | alur | addi =>
    cases h
    exact after_of_writesReg rfl
  | lw =>
    rcases archLoad_cases a dest (alu aluOp (a.read src1) imm) with ⟨-, hl⟩ | ⟨-, hl⟩
    · cases hl.symm.trans h
      exact after_of_writesReg rfl
    · cases hl.symm.trans h
  | sw =>
    rcases archStore_cases a (alu aluOp (a.read src1) imm) (a.read src2) with ⟨-, hs⟩ | ⟨-, hs⟩
    · cases hs.symm.trans h
      rfl
    · cases hs.symm.trans h
  | beq | bne => cases h; rfl
  | halt => cases h

/-! ### The cycle -/

section
variable {s : State} {v : Option RawFields} {d : Decoded}

/-- An issuing cycle of any record but HALT's fetches the next word (R186). -/
theorem fetchRow_of_issues (inv : s.PipelineInv) (issues : s.issues v = true) (hd : decodeResult v s = .ok d)
    (noHalt : d.opcode ≠ .halt) : fetchRow v s = .normal := by
  obtain ⟨-, -, -, -, quiet, -⟩ := inv
  simp only [State.issues, Bool.and_eq_true, bne_iff_ne, Bool.not_eq_true'] at issues
  obtain ⟨⟨full, noFlush⟩, noStall⟩ := issues
  have running : s.fetchStopped = false := by
    by_contra h
    exact full (quiet (by simpa using h)).1
  simp [fetchRow, noFlush, noStall, running, haltDec, hd, noHalt]

/-- The view after a clock edge that issues a record is the view before with the record's effect. `nextInstNo` is not the
bubble's 0, so the view sees the word just fetched as one (U11). -/
theorem commit_arch_of_issues (inv : s.PipelineInv) (issues : s.issues v = true) (hd : decodeResult v s = .ok d)
    (noHalt : d.opcode ≠ .halt) (number : s.nextInstNo ≠ 0) : (s.commit v).arch = d.after s.arch := by
  have row := fetchRow_of_issues inv issues hd noHalt
  have taken := flushSignal_eq inv
  have advances := State.commit_advances inv v
  obtain ⟨-, -, -, -, -, -, -, follows⟩ := inv
  simp only [State.issues, Bool.and_eq_true, bne_iff_ne, Bool.not_eq_true'] at issues
  obtain ⟨⟨full, noFlush⟩, noStall⟩ := issues
  have idex : (s.commit v).idex = issued d s := idexNext_issued noFlush noStall hd
  have ifid : (s.commit v).ifid = ⟨s.nextInstNo, s.imem.readWord s.pc, s.pc⟩ := by
    simp only [State.commit_ifid, ifidNext, row]
  have fetched : (s.commit v).ifid ≠ IfId.bubble := fun h => number (congrArg IfId.instNo (ifid.symm.trans h))
  have pc : s.arch.pc = s.ifid.pc := by
    change s.nextPc = _
    rw [State.nextPc, ← taken, noFlush, if_neg Bool.false_ne_true, if_neg full]
  have seqA : (s.commit v).seqA = s.arch.read d.src1Reg := by
    rw [State.seqA, advances.regsAfterMem, idex]
    rfl
  have seqB : (s.commit v).seqB = s.arch.read d.src2Reg := by
    rw [State.seqB, advances.regsAfterMem, idex]
    rfl
  have result : (s.commit v).seqResult = d.result s.arch := by
    rw [State.seqResult, seqA, seqB, idex]
    rfl
  refine ArchState.mk.injEq .. |>.mpr ⟨?_, ?_, ?_⟩
  · rw [State.nextPc, if_neg fetched, seqA, seqB, idex, ifid, follows.resolve_left full, pc]
    rfl
  · rw [State.regsAfterEx, advances.regsAfterMem, advances.dmemAfterMem, result, idex]
    rfl
  · rw [State.dmemAfterEx, advances.dmemAfterMem, result, seqB, idex]
    rfl

/-- A state that accepts the word in Decode issues its record, if the record needs no other registers than the ones
named. -/
theorem issues_of_accepts {sources : List Nat} (acc : s.accepts sources = true) (hd : decodeResult v s = .ok d)
    (needs : ∀ r, d.opcode.needs d.src1Reg d.src2Reg r = true → ∃ n ∈ sources, BitVec.ofNat 5 n = r) :
    s.issues v = true := by
  simp only [State.accepts, Bool.and_eq_true, Bool.not_eq_true'] at acc
  obtain ⟨⟨⟨⟨⟨-, full⟩, -⟩, noFlush⟩, -⟩, noLoad⟩ := acc
  have noStall : stallSignal v s = false := by
    simp only [stallSignal, hd, noFlush, Bool.not_false, Bool.true_and, loadUse]
    by_contra stall
    simp only [Bool.not_eq_false, Bool.and_eq_true] at stall
    obtain ⟨load, needed⟩ := stall
    obtain ⟨n, hn, named⟩ := needs _ needed
    have named : (sources.any fun r => BitVec.ofNat 5 r == s.idex.destReg) = true :=
      List.any_eq_true.mpr ⟨n, hn, beq_iff_eq.mpr named⟩
    simp [load, named] at noLoad
  simp [State.issues, full, noFlush, noStall]

/-- The cycle of an accepted word whose effect does not end the run brings the view to that effect, without an error. -/
theorem issued_of_accepts {sources : List Nat} {a : ArchState} (inv : s.PipelineInv) (acc : s.accepts sources = true)
    (hd : decodeResult v s = .ok d)
    (needs : ∀ r, d.opcode.needs d.src1Reg d.src2Reg r = true → ∃ n ∈ sources, BitVec.ofNat 5 n = r)
    (noDest : d.opcode.writesReg = false → d.destReg = 0) (effect : seqEffect d s.arch = .next a) :
    s.Issued (clockCycle v s) d a := by
  have issues := issues_of_accepts acc hd needs
  simp only [State.accepts, Bool.and_eq_true, Bool.not_eq_true', bne_iff_ne, State.addressesGood,
    Option.isNone_iff_eq_none] at acc
  obtain ⟨⟨⟨⟨⟨running, full⟩, number⟩, noFlush⟩, noMemError, aligned⟩, -⟩ := acc
  have noHalt : d.opcode ≠ .halt := fun halt => by simp [seqEffect, halt] at effect
  have row := fetchRow_of_issues inv issues hd noHalt
  have noError : cycleError v s = none :=
    cycleError_eq_none.mpr ⟨noMemError, by simp [decodeError, hd], by simp [fetchError, row, aligned]⟩
  have contract : KeepsContract v s := by
    refine ⟨fun d' hd' => ?_, fun empty => absurd empty full⟩
    cases hd.symm.trans hd'
    exact noDest
  have noStall : stallSignal v s = false := by simpa [State.issues, full, noFlush] using issues
  have inv' := commit_keeps_pipelineInv inv contract noError
  have arch := (commit_arch_of_issues inv issues hd noHalt number).trans (after_of_seqEffect effect)
  rw [clockCycle_commit (by simp [State.commits, running, noError])]
  refine ⟨?_, idexNext_issued noFlush noStall hd, arch, fun u run noFault => ?_, fun u run noFault => ?_⟩
  · have : s.halted = false ∧ s.fault = none := by simpa [State.frozen] using running
    exact this.2
  · rw [← arch]
    exact run_two_dmem inv' run noFault
  · rw [← arch]
    exact run_three_committed inv' run noFault

end

end Sys2Proof.Machine
end

section
/-! SUPPORT. The ALU instructions of 40_alu.md: the table of R130, and each instruction's cycle as that of its record. -/

namespace Sys2Proof.Machine

/-- Settles O13: SUB by the integers' balanced remainder, every other row by the operation's own lemma. -/
theorem aluTable : Obligations.AluTable := by
  intro a b
  refine ⟨rfl, BitVec.toNat_add a b, BitVec.toInt_sub, fun _ => BitVec.getLsbD_and, fun _ => BitVec.getLsbD_or,
    fun _ => BitVec.getLsbD_xor, fun less => if_pos less, fun notLess => if_neg (Int.not_lt.mpr notLess)⟩

/-- An instruction of format R brings the ALU's result to `rd` (R131 to R136, R139). -/
theorem formatR_issued (op : AluOp) {s : State} {rd rs rt : Nat} (hd : rd ≤ 31) (hs : rs ≤ 31) (ht : rt ≤ 31)
    (inv : s.PipelineInv) (acc : s.accepts [rs, rt] = true) :
    s.Issued (clockCycle (some (fieldsR op.code rd rs rt)) s)
      ⟨.alur, op, BitVec.ofNat 5 rs, BitVec.ofNat 5 rt, BitVec.ofNat 5 rd, 0⟩
      (s.arch.writeNext rd (alu op (s.arch.x rs) (s.arch.x rt))) :=
  issued_of_accepts inv acc (checkFields_ok _ .alur op 0 hs ht hd)
    (fun r => by simp [Opcode.needs, Opcode.uses1, Opcode.uses2]) nofun rfl

/-- ADDI brings the sum of `rs` and the immediate to `rt`; its second source field is not needed (R137, R139). -/
theorem addi_issued {s : State} {rt rs : Nat} (imm : BitVec 16) (ht : rt ≤ 31) (hs : rs ≤ 31) (inv : s.PipelineInv)
    (acc : s.accepts [rs] = true) :
    s.Issued (clockCycle (some (fieldsLoadImm .addi rt rs imm)) s)
      ⟨.addi, .add, BitVec.ofNat 5 rs, 0, BitVec.ofNat 5 rt, sext32 imm⟩
      (s.arch.writeNext rt (s.arch.x rs + sext32 imm)) :=
  issued_of_accepts inv acc (checkFields_ok _ .addi .add _ hs (Nat.zero_le 31) ht)
    (fun r => by simp [Opcode.needs, Opcode.uses1, Opcode.uses2]) nofun rfl

/-- Settles O34: format R with the ALU's row for ADD (R131). -/
theorem addCompletes : Obligations.AddCompletes := fun _ _ _ _ hd hs ht inv acc =>
  ⟨decodeWord_encodeR "ADD" (by simp [hd, hs, ht]), _, rfl, formatR_issued .add hd hs ht inv acc⟩

/-- Settles O35: format R with the ALU's row for SUB (R132). -/
theorem subCompletes : Obligations.SubCompletes := fun _ _ _ _ hd hs ht inv acc =>
  ⟨decodeWord_encodeR "SUB" (by simp [hd, hs, ht]), _, rfl, formatR_issued .sub hd hs ht inv acc⟩

/-- Settles O36: format R with the ALU's row for AND (R133). -/
theorem andCompletes : Obligations.AndCompletes := fun _ _ _ _ hd hs ht inv acc =>
  ⟨decodeWord_encodeR "AND" (by simp [hd, hs, ht]), _, rfl, formatR_issued .and hd hs ht inv acc⟩

/-- Settles O37: format R with the ALU's row for OR (R134). -/
theorem orCompletes : Obligations.OrCompletes := fun _ _ _ _ hd hs ht inv acc =>
  ⟨decodeWord_encodeR "OR" (by simp [hd, hs, ht]), _, rfl, formatR_issued .or hd hs ht inv acc⟩

/-- Settles O38: format R with the ALU's row for XOR (R135). -/
theorem xorCompletes : Obligations.XorCompletes := fun _ _ _ _ hd hs ht inv acc =>
  ⟨decodeWord_encodeR "XOR" (by simp [hd, hs, ht]), _, rfl, formatR_issued .xor hd hs ht inv acc⟩

/-- Settles O39: format R with the ALU's row for SLT (R136). -/
theorem sltCompletes : Obligations.SltCompletes := fun _ _ _ _ hd hs ht inv acc =>
  ⟨decodeWord_encodeR "SLT" (by simp [hd, hs, ht]), _, rfl, formatR_issued .slt hd hs ht inv acc⟩

/-- Settles O40: `addi_issued`, for the word of format I. -/
theorem addiCompletes : Obligations.AddiCompletes := fun _ _ _ imm ht hs inv acc =>
  ⟨decodeWord_encodeI "ADDI" (by simp [hs, ht]), _, rfl, addi_issued imm ht hs inv acc⟩

end Sys2Proof.Machine
end

section
/-! SUPPORT. The branches of 42_branch.md: the cycle that issues one takes its sequential effect, and the next one, when
the branch is taken, squashes the two younger words (R161, R201). -/

namespace Sys2Proof.Machine

section
variable {s t u : State} {v : Option RawFields} {d : Decoded}

/-! ### The cycle of a taken branch in Execute -/

/-- A halted machine has only empty latches, so one with a taken branch in Execute runs. -/
theorem frozen_eq_false_of_flushSignal (inv : s.PipelineInv) (noFault : s.fault = none) (flush : flushSignal s = true) :
    s.frozen = false := by
  obtain ⟨-, -, -, -, -, ⟨-, -, -, drained⟩, -, -⟩ := inv
  have running : s.halted = false := by
    by_contra halted
    obtain ⟨empty, -⟩ := drained (by simpa using halted)
    have branch := isBranch_of_flushSignal flush
    rw [empty] at branch
    cases branch
  simp [State.frozen, running, noFault]

/-- A clock edge under a flush puts the PC at the target and empties IF/ID and ID/EX (row 1 of R186, row 1 of R194). -/
theorem commit_of_flushSignal (v : Option RawFields) (flush : flushSignal s = true) :
    (s.commit v).pc = flushTarget s ∧ (s.commit v).ifid = IfId.bubble ∧ (s.commit v).idex = IdEx.bubble := by
  have row : fetchRow v s = .flush := by simp [fetchRow, flush]
  simp [pcNext, ifidNext, idexNext, row, flush]

theorem step_of_flushSignal (inv : s.PipelineInv) (noFault : s.fault = none) (flush : flushSignal s = true)
    (h : step s = .next t) (noFault' : t.fault = none) :
    t.pc = flushTarget s ∧ t.ifid = IfId.bubble ∧ t.idex = IdEx.bubble := by
  obtain ⟨v, cycle⟩ := step_is_cycle s
  cases cycle.symm.trans h
  obtain ⟨edge, -⟩ := clockCycle_of_no_fault (frozen_eq_false_of_flushSignal inv noFault flush) noFault'
  rw [edge]
  exact commit_of_flushSignal v flush

/-! ### The record that has just been issued -/

/-- A record decides its branch in Execute as its sequential effect does. -/
theorem flushSignal_of_issued (inv : t.PipelineInv) (advances : s.Advances t) (idex : t.idex = issued d s) :
    flushSignal t = d.takesBranch s.arch := by
  rw [flushSignal_eq inv, State.seqA, State.seqB, advances.regsAfterMem, idex]
  rfl

theorem keepsContract_of_accepts {sources : List Nat} (acc : s.accepts sources = true) (hd : decodeResult v s = .ok d)
    (noDest : d.opcode.writesReg = false → d.destReg = 0) : KeepsContract v s := by
  simp only [State.accepts, Bool.and_eq_true, bne_iff_ne] at acc
  obtain ⟨⟨⟨⟨⟨-, full⟩, -⟩, -⟩, -⟩, -⟩ := acc
  refine ⟨fun d' hd' => ?_, fun empty => absurd empty full⟩
  cases hd.symm.trans hd'
  exact noDest

/-- A record that takes its branch leads, in the cycle after its own, to the target with the two younger words squashed. -/
theorem step_of_issued_taken {a : ArchState} (inv : s.PipelineInv) (contract : KeepsContract v s)
    (issue : s.Issued (clockCycle v s) d a) (taken : d.takesBranch s.arch = true) (h : step (clockCycle v s) = .next u)
    (noFault : u.fault = none) :
    u.pc = branchTarget s.ifid.pc d.immediate ∧ u.ifid = IfId.bubble ∧ u.idex = IdEx.bubble := by
  obtain ⟨noFault₁, idex, -⟩ := issue
  have inv₁ := clockCycle_keeps_pipelineInv inv contract
  have flush := (flushSignal_of_issued inv₁ (clockCycle_advances inv noFault₁) idex).trans taken
  obtain ⟨pc, squashed⟩ := step_of_flushSignal inv₁ noFault₁ flush h noFault
  refine ⟨?_, squashed⟩
  rw [pc, flushTarget, idex]
  rfl

end

/-! ### BEQ and BNE -/

/-- A branch's effect is the next `pc`, by the outcome that Execute computes (R161, R163, R164). -/
theorem seqEffect_of_isBranch {d : Decoded} (branch : d.opcode.isBranch = true) (a : ArchState) :
    seqEffect d a = archBranch (d.takesBranch a) d.immediate a := by
  obtain ⟨op, aluOp, src1, src2, dest, imm⟩ := d
  cases op with
  | beq | bne => rfl
  | nop | alur | addi | lw | sw | halt => cases branch

/-- The cycle of an accepted branch, `taken` being its condition on the two registers: the effect on the `pc` alone, and
the squash in the cycle after. -/
theorem branch_completes {op : Opcode} (branch : op.isBranch = true) {s : State} {rs rt : Nat} (off : BitVec 16)
    (hs : rs ≤ 31) (ht : rt ≤ 31) (inv : s.PipelineInv) (acc : s.accepts [rs, rt] = true) {taken : Prop}
    [Decidable taken] (outcome : branchTaken op (s.arch.x rs) (s.arch.x rt) = true ↔ taken) :
    s.Issued (clockCycle (some (fieldsBranch op rs rt off)) s)
      ⟨op, .sub, BitVec.ofNat 5 rs, BitVec.ofNat 5 rt, 0, sext32 off⟩
      { s.arch with pc := if taken then s.arch.pc + 4 + (sext32 off <<< 2) else s.arch.pc + 4 } ∧
    (taken → ∀ u, step (clockCycle (some (fieldsBranch op rs rt off)) s) = .next u → u.fault = none →
      u.pc = s.ifid.pc + 4 + (sext32 off <<< 2) ∧ u.ifid = IfId.bubble ∧ u.idex = IdEx.bubble) := by
  have hd : decodeResult (some (fieldsBranch op rs rt off)) s =
      .ok ⟨op, .sub, BitVec.ofNat 5 rs, BitVec.ofNat 5 rt, 0, sext32 off⟩ :=
    checkFields_ok _ op .sub _ hs ht (Nat.zero_le 31)
  have needs (r : RegIdx) (h : op.needs (BitVec.ofNat 5 rs) (BitVec.ofNat 5 rt) r = true) :
      ∃ n ∈ [rs, rt], BitVec.ofNat 5 n = r := by
    simp only [Opcode.needs, Bool.or_eq_true, Bool.and_eq_true, beq_iff_eq] at h
    simpa using h.imp And.right And.right
  have effect : seqEffect ⟨op, .sub, BitVec.ofNat 5 rs, BitVec.ofNat 5 rt, 0, sext32 off⟩ s.arch =
      .next { s.arch with pc := if taken then s.arch.pc + 4 + (sext32 off <<< 2) else s.arch.pc + 4 } := by
    rw [seqEffect_of_isBranch branch, archBranch]
    simp only [← outcome]
    rfl
  have issue := issued_of_accepts inv acc hd needs (fun _ => rfl) effect
  have contract := keepsContract_of_accepts acc hd fun _ => rfl
  have squash (u : State) := step_of_issued_taken (u := u) inv contract issue
  exact ⟨issue, fun h u => squash u (outcome.mpr h)⟩

/-- Settles O44: `branch_completes`, BEQ's outcome being the equality of its registers. -/
theorem branchIfEqualCompletes : Obligations.BranchIfEqualCompletes := fun _ _ _ off hs ht inv acc =>
  ⟨decodeWord_encodeI "BEQ" (mk := fun rt rs imm => .beq rs rt imm) (by simp [hs, ht]), _, rfl,
    branch_completes rfl off hs ht inv acc beq_iff_eq⟩

/-- Settles O45: `branch_completes`, BNE's outcome being the inequality of its registers. -/
theorem branchIfNotEqualCompletes : Obligations.BranchIfNotEqualCompletes := fun _ _ _ off hs ht inv acc =>
  ⟨decodeWord_encodeI "BNE" (mk := fun rt rs imm => .bne rs rt imm) (by simp [hs, ht]), _, rfl,
    branch_completes rfl off hs ht inv acc bne_iff_ne⟩

end Sys2Proof.Machine
end

section
/-! SUPPORT. NOP and HALT of 43_system.md: NOP's cycle as that of the all-zero record, HALT's Decode cycle, which stops the
fetch, and the three cycles that take it through Writeback while everything older completes. -/

namespace Sys2Proof.Machine

/-! ### NOP -/

/-- Settles O33: the all-zero record needs no register, and its sequential effect is to advance the `pc`. -/
theorem nopCompletes : Obligations.NopCompletes := fun _ inv acc =>
  ⟨decodeWord_zero, _, rfl, issued_of_accepts inv acc (checkFields_nop _) nofun (fun _ => rfl) rfl⟩

section
variable {s t u : State} {v : Option RawFields} {d : Decoded}

/-! ### The Decode cycle of HALT -/

theorem fetchRow_of_haltDec (h : haltDec v s = true) : fetchRow v s = .stop := by
  obtain ⟨noFlush, -⟩ := haltDec_eq_true_iff.mp h
  simp [fetchRow, noFlush, stallSignal_of_haltDec h, h]

/-- With no taken branch ahead of it, the word in Decode is the next to execute sequentially. -/
theorem arch_pc_of_not_flushed (inv : s.PipelineInv) (full : s.ifid ≠ IfId.bubble) (noFlush : flushSignal s = false) :
    s.arch.pc = s.ifid.pc := by
  change s.nextPc = _
  rw [State.nextPc, ← flushSignal_eq inv, noFlush, if_neg Bool.false_ne_true, if_neg full]

/-- The clock edge that issues a HALT holds the PC, empties IF/ID and stops the fetch (R172). -/
theorem commit_of_haltDec (h : haltDec v s = true) :
    (s.commit v).pc = s.pc ∧ (s.commit v).ifid = IfId.bubble ∧ (s.commit v).fetchStopped = true := by
  simp [pcNext, ifidNext, fetchStoppedNext, fetchRow_of_haltDec h]

/-- That clock edge leaves the view past the HALT, which writes nothing, and otherwise as it was. -/
theorem commit_arch_of_haltDec (inv : s.PipelineInv) (full : s.ifid ≠ IfId.bubble) (h : haltDec v s = true) :
    (s.commit v).arch = { s.arch with pc := s.arch.pc + 4 } := by
  have halt : (s.commit v).idex.opcode = .halt := idexNext_halt_iff.mpr h
  have advances := State.commit_advances inv v
  have archPc := arch_pc_of_not_flushed inv full (haltDec_eq_true_iff.mp h).1
  obtain ⟨pc, ifid, -⟩ := commit_of_haltDec h
  obtain ⟨-, -, -, -, -, -, -, follows⟩ := inv
  refine ArchState.mk.injEq .. |>.mpr ⟨?_, ?_, ?_⟩
  · simp only [State.nextPc, halt, branchTaken, Bool.false_eq_true, if_false, ifid, if_true, pc, archPc,
      follows.resolve_left full]
  · simp only [State.regsAfterEx, halt, advances.regsAfterMem]
    rfl
  · simp only [State.dmemAfterEx, halt, advances.dmemAfterMem]
    rfl

/-- A HALT fetches nothing, so Fetch raises nothing: where the word is accepted, its cycle is a clock edge with `haltDec`. -/
theorem haltDec_of_accepted_halt {sources : List Nat} (acc : s.accepts sources = true)
    (hd : decodeResult v s = .ok d) (halt : d.opcode = .halt) :
    haltDec v s = true ∧ s.ifid ≠ IfId.bubble ∧ s.fault = none ∧ clockCycle v s = s.commit v := by
  simp only [State.accepts, Bool.and_eq_true, Bool.not_eq_true', bne_iff_ne, State.addressesGood,
    Option.isNone_iff_eq_none] at acc
  obtain ⟨⟨⟨⟨⟨running, full⟩, -⟩, noFlush⟩, noMemError, -⟩, -⟩ := acc
  have stops : haltDec v s = true := haltDec_eq_true_iff.mpr ⟨noFlush, d, hd, halt⟩
  have noError : cycleError v s = none := cycleError_eq_none.mpr
    ⟨noMemError, by simp [decodeError, hd], by simp [fetchError, fetchRow_of_haltDec stops]⟩
  have noFault : s.halted = false ∧ s.fault = none := by simpa [State.frozen] using running
  exact ⟨stops, full, noFault.2, clockCycle_commit (by simp [State.commits, running, noError])⟩

/-- `issued_of_accepts` for HALT, whose sequential effect is to stop: the view goes past it (R171, R177). -/
theorem halt_issued {sources : List Nat} (inv : s.PipelineInv) (acc : s.accepts sources = true)
    (hd : decodeResult v s = .ok d) (halt : d.opcode = .halt) (noDest : d.destReg = 0) :
    s.Issued (clockCycle v s) d { s.arch with pc := s.arch.pc + 4 } := by
  obtain ⟨stops, full, noFault, edge⟩ := haltDec_of_accepted_halt acc hd halt
  obtain ⟨noFlush, -⟩ := haltDec_eq_true_iff.mp stops
  have arch := commit_arch_of_haltDec inv full stops
  have inv' := clockCycle_keeps_pipelineInv inv (keepsContract_of_accepts acc hd fun _ => noDest)
  rw [edge] at inv' ⊢
  refine ⟨noFault, idexNext_issued noFlush (stallSignal_of_haltDec stops) hd, arch, ?_, ?_⟩ <;> rw [← arch]
  · exact fun _ => run_two_dmem inv'
  · exact fun _ => run_three_committed inv'

/-! ### The drain -/

/-- After the fetch stop no cycle moves the PC or restarts the fetch: no branch is left to flush (R172, R259). -/
theorem step_of_fetchStopped (inv : s.PipelineInv) (stopped : s.fetchStopped = true) (h : step s = .next t) :
    t.pc = s.pc ∧ t.fetchStopped = true := by
  obtain ⟨v, cycle⟩ := step_is_cycle s
  cases cycle.symm.trans h
  obtain ⟨-, -, -, -, quiet, -⟩ := inv
  obtain ⟨-, noBranch⟩ := quiet stopped
  rcases clockCycle_cases v s with ⟨-, h⟩ | ⟨e, -, -, h⟩ | ⟨-, -, h⟩ <;> rw [h]
  · exact ⟨rfl, stopped⟩
  · exact ⟨rfl, stopped⟩
  · rw [State.commit_pc, State.commit_fetchStopped, fetchStoppedNext_eq, stopped]
    refine ⟨?_, rfl⟩
    rcases fetchRow_cases v s with ⟨-, flush⟩ | ⟨row, -⟩ | ⟨row, -⟩ | ⟨-, -, -, running, -⟩
    · rw [flushSignal_of_not_branch noBranch] at flush
      cases flush
    · simp only [pcNext, row]
    · simp only [pcNext, row]
    · rw [stopped] at running
      cases running

theorem run_pc_of_fetchStopped {n : Nat} (inv : s.PipelineInv) (stopped : s.fetchStopped = true)
    (h : core.run n s = .next u) : u.pc = s.pc := by
  induction n generalizing s with
  | zero => cases h; rfl
  | succ n ih =>
    obtain ⟨t, first⟩ := step_answers_next s
    obtain ⟨pc, stopped'⟩ := step_of_fetchStopped inv stopped first
    rw [run_succ_of_step n first] at h
    exact (ih (step_keeps_pipelineInv inv first) stopped' h).trans pc

/-- One cycle on, each class is one stage on, and a HALT that was in Writeback has halted the machine (R173). -/
theorem step_moves_opcodes (inv : s.PipelineInv) (h : step s = .next t) (noFault : t.fault = none) :
    t.exmem.opcode = s.idex.opcode ∧ t.memwb.opcode = s.exmem.opcode ∧ t.halted = haltedNext s := by
  obtain ⟨v, cycle⟩ := step_is_cycle s
  cases cycle.symm.trans h
  rcases clockCycle_cases v s with ⟨frozen, h⟩ | ⟨e, -, -, h⟩ | ⟨-, -, h⟩ <;> rw [h] at noFault ⊢
  · have halted : s.halted = true := by simpa [State.frozen, noFault] using frozen
    obtain ⟨-, -, -, -, -, ⟨-, -, -, drained⟩, -, -⟩ := inv
    obtain ⟨idex, exmem, memwb⟩ := drained halted
    simp [idex, exmem, memwb, haltedNext]
  · cases noFault
  · exact ⟨rfl, rfl, rfl⟩

/-- A HALT in Execute halts the machine in three cycles. Data memory has what was in flight after two of them, and the
third leaves it alone: with the HALT in Writeback, Memory is empty. -/
theorem run_three_of_halt (inv : s.PipelineInv) (halt : s.idex.opcode = .halt) (h : core.run 3 s = .next u)
    (noFault : u.fault = none) : u.halted = true ∧ u.dmem = s.arch.dmem := by
  obtain ⟨t₁, h₁, noFault₁, h⟩ := run_succ_of_no_fault h noFault
  obtain ⟨t₂, h₂, noFault₂, h⟩ := run_succ_of_no_fault h noFault
  obtain ⟨_, h₃, -, h⟩ := run_succ_of_no_fault h noFault
  cases h
  have inv₁ := step_keeps_pipelineInv inv h₁
  have inv₂ := step_keeps_pipelineInv inv₁ h₂
  obtain ⟨inMem, -⟩ := step_moves_opcodes inv h₁ noFault₁
  obtain ⟨-, inWb, -⟩ := step_moves_opcodes inv₁ h₂ noFault₂
  obtain ⟨-, -, halted⟩ := step_moves_opcodes inv₂ h₃ noFault
  have haltInWb : t₂.memwb.opcode = .halt := inWb.trans (inMem.trans halt)
  have dmem₂ : t₂.dmem = s.arch.dmem :=
    run_two_dmem inv (by rw [run_succ_of_step 1 h₁, run_succ_of_step 0 h₂, run_zero]) noFault₂
  refine ⟨by simp [halted, haltedNext, haltInWb], ?_⟩
  rw [(step_advances inv₂ h₃ noFault).dmem, ← dmem₂]
  obtain ⟨-, -, -, -, -, ⟨-, -, emptyMem, -⟩, -, -⟩ := inv₂
  simp [State.dmemAfterMem, (emptyMem haltInWb).2]

end

/-- Settles O46: `halt_issued` for the Decode cycle, and from the state it leaves, with the HALT in Execute and the fetch
stopped, the three cycles of the drain. -/
theorem haltCompletes : Obligations.HaltCompletes := by
  intro s inv acc
  have hd : decodeResult (some (fieldsN .halt)) s = .ok ⟨.halt, .none, 0, 0, 0, 0⟩ :=
    checkFields_ok _ .halt .none 0 (Nat.zero_le 31) (Nat.zero_le 31) (Nat.zero_le 31)
  have issue := halt_issued inv acc hd rfl rfl
  have inv' := clockCycle_keeps_pipelineInv inv (keepsContract_of_accepts acc hd fun _ => rfl)
  obtain ⟨stops, full, -, edge⟩ := haltDec_of_accepted_halt acc hd rfl
  rw [edge] at issue inv'
  obtain ⟨pc, ifid, stopped⟩ := commit_of_haltDec stops
  refine ⟨decodeWord_encode (i := .halt) rfl, _, congrArg Host.Outcome.next edge, issue, stopped, ifid, fun u run noFault => ?_⟩
  obtain ⟨-, -, arch, -, committed⟩ := issue
  obtain ⟨halted, dmem⟩ := run_three_of_halt inv' (idexNext_halt_iff.mpr stops) run noFault
  obtain ⟨-, -, -, -, -, -, -, follows⟩ := inv
  refine ⟨halted, committed u run noFault, ?_, ?_⟩
  · rw [dmem, arch]
  · rw [run_pc_of_fetchStopped inv' stopped run, pc, follows.resolve_left full]

end Sys2Proof.Machine
end

section
/-! SUPPORT. The opcode table and the rows of `REFDEC` agree on every word, so a step is one cycle with `REFDEC` as the
decoder (R100, R182). -/

namespace Sys2Proof.Machine

/-- The record that an instruction's meaning hands to the clock cycle (`exec_eq_clockCycle`). -/
def fieldsOf : Instr → RawFields
  | .nop => fieldsN .nop
  | .add rd rs rt => fieldsR AluOp.add.code rd rs rt
  | .sub rd rs rt => fieldsR AluOp.sub.code rd rs rt
  | .and rd rs rt => fieldsR AluOp.and.code rd rs rt
  | .or rd rs rt => fieldsR AluOp.or.code rd rs rt
  | .xor rd rs rt => fieldsR AluOp.xor.code rd rs rt
  | .slt rd rs rt => fieldsR AluOp.slt.code rd rs rt
  | .addi rt rs imm => fieldsLoadImm .addi rt rs imm
  | .lw rt imm rs => fieldsLoadImm .lw rt rs imm
  | .sw rt imm rs => fieldsStore rt rs imm
  | .beq rs rt off => fieldsBranch .beq rs rt off
  | .bne rs rt off => fieldsBranch .bne rs rt off
  | .halt => fieldsN .halt

theorem exec_eq_clockCycle (i : Instr) (s : State) : exec i s = .next (clockCycle (some (fieldsOf i)) s) := by
  cases i <;> rfl

theorem aluOp_code_cases {c : Code} (h1 : 1 ≤ c.toNat) (h6 : c.toNat ≤ 6) :
    c = 1 ∨ c = 2 ∨ c = 3 ∨ c = 4 ∨ c = 5 ∨ c = 6 := by
  simp only [← BitVec.toNat_inj, BitVec.ofNat_eq_ofNat, BitVec.toNat_ofNat]
  omega

section
variable {w : Word}

theorem fieldsOf_of_matches (r : OpcodeRow) (h : r.Matches w) (row : r ∈ opcodeTable := by simp [opcodeTable_eq]) :
    (decodeWord w).toOption.map fieldsOf = some (fieldsOf (r.build w)) := by
  rw [decodeWord_of_matches row h]
  rfl

/-- The words of format R: `funct` tells the six rows of the table apart, and is the record's `aluOp` (R102 to R107). -/
theorem fieldsOf_formatR (hop : opField w = 0x01) (hzero : zeroField w = 0) (h1 : 1 ≤ (functField w).toNat)
    (h6 : (functField w).toNat ≤ 6) : (decodeWord w).toOption.map fieldsOf =
      some (fieldsR (functField w) (rdField w).toNat (rsField w).toNat (rtField w).toNat) := by
  have matchesRow (name : String) (mk) {code : Code} (hf : functField w = code) : (rowR name code mk).Matches w :=
    (rowR_matches ..).mpr ⟨hop, hzero, hf⟩
  rcases aluOp_code_cases h1 h6 with hf | hf | hf | hf | hf | hf <;> rw [hf]
  · exact fieldsOf_of_matches _ (matchesRow "ADD" .add hf)
  · exact fieldsOf_of_matches _ (matchesRow "SUB" .sub hf)
  · exact fieldsOf_of_matches _ (matchesRow "AND" .and hf)
  · exact fieldsOf_of_matches _ (matchesRow "OR" .or hf)
  · exact fieldsOf_of_matches _ (matchesRow "XOR" .xor hf)
  · exact fieldsOf_of_matches _ (matchesRow "SLT" .slt hf)

/-- A word of R116 has no instruction and so no record. -/
theorem fieldsOf_of_reserved (h : (0x07 ≤ (opField w).toNat ∧ (opField w).toNat ≤ 0x3E) ∨
    (opField w = 0x00 ∧ w.extractLsb' 0 26 ≠ 0) ∨ (opField w = 0x3F ∧ w.extractLsb' 0 26 ≠ 0) ∨
    (opField w = 0x01 ∧ (zeroField w ≠ 0 ∨ functField w = 0 ∨ 7 ≤ (functField w).toNat))) :
    (decodeWord w).toOption.map fieldsOf = none := by
  rw [(unknownWordsAreExactlyTheReserved w).mpr h]
  rfl

end

/-- `REFDEC` answers the record of the instruction that the table reads from the word, and nothing for R116's words. -/
theorem refdec_eq_fieldsOf (w : Word) : refdec w = (decodeWord w).toOption.map fieldsOf := by
  unfold refdec
  dsimp only
  symm
  split
  · next hw => subst hw; decide
  next nonzero =>
  split
  · next hop =>
    have low : w.extractLsb' 0 26 ≠ 0 := fun low => nonzero ((eq_encodeN_iff w 0).mpr ⟨hop, low⟩)
    exact fieldsOf_of_reserved (.inr (.inl ⟨hop, low⟩))
  next hop0 =>
  split
  · next hop =>
    split
    · next fields =>
      obtain ⟨zero, functPos, functLe⟩ := fields
      exact fieldsOf_formatR hop zero functPos functLe
    · next fields =>
      refine fieldsOf_of_reserved (.inr (.inr (.inr ⟨hop, ?_⟩)))
      by_contra good
      simp only [not_or, not_not] at good
      obtain ⟨zero, functNe, functLt⟩ := good
      have functPos : (functField w).toNat ≠ 0 := fun h => functNe (BitVec.eq_of_toNat_eq h)
      exact fields ⟨zero, by omega, by omega⟩
  next hop1 =>
  split
  · next hop => exact fieldsOf_of_matches (rowI "ADDI" 2 fun rt rs imm => .addi rt rs imm) ((rowI_matches ..).mpr hop)
  next hop2 =>
  split
  · next hop => exact fieldsOf_of_matches (rowI "LW" 3 fun rt rs imm => .lw rt imm rs) ((rowI_matches ..).mpr hop)
  next hop3 =>
  split
  · next hop => exact fieldsOf_of_matches (rowI "SW" 4 fun rt rs imm => .sw rt imm rs) ((rowI_matches ..).mpr hop)
  next hop4 =>
  split
  · next hop => exact fieldsOf_of_matches (rowI "BEQ" 5 fun rt rs imm => .beq rs rt imm) ((rowI_matches ..).mpr hop)
  next hop5 =>
  split
  · next hop => exact fieldsOf_of_matches (rowI "BNE" 6 fun rt rs imm => .bne rs rt imm) ((rowI_matches ..).mpr hop)
  next hop6 =>
  split
  · next hw => subst hw; decide
  next noHalt =>
  by_cases hop63 : opField w = 0x3F
  · have low : w.extractLsb' 0 26 ≠ 0 := fun low => noHalt ((eq_encodeN_iff w 0x3F).mpr ⟨hop63, low⟩)
    exact fieldsOf_of_reserved (.inr (.inr (.inl ⟨hop63, low⟩)))
  · simp only [← BitVec.toNat_inj, BitVec.ofNat_eq_ofNat, BitVec.toNat_ofNat] at hop0 hop1 hop2 hop3 hop4 hop5 hop6 hop63
    exact fieldsOf_of_reserved (.inl (by omega))

/-- A step is one cycle with `REFDEC` as the decoder. -/
theorem step_eq_cycleWith_refdec (s : State) : step s = .next (cycleWith refdec s) := by
  rw [cycleWith, refdec_eq_fieldsOf]
  unfold step
  cases decodeWord s.ifid.instruction with
  | ok i => exact exec_eq_clockCycle i s
  | error e => rfl

/-- A step of a running machine that leaves no fault is a clock edge with `REFDEC`'s answer, without a stage's error. -/
theorem step_commits {s t : State} (h : step s = .next t) (running : s.frozen = false) (noFault : t.fault = none) :
    t = s.commit (refdec s.ifid.instruction) ∧ cycleError (refdec s.ifid.instruction) s = none := by
  cases (step_eq_cycleWith_refdec s).symm.trans h
  exact clockCycle_of_no_fault running noFault

end Sys2Proof.Machine
end

section
/-! SUPPORT. What each stage does at a clock edge, for any decoder's answer, and the stages' statements, each a use of
`step_commits` (R186, R194, R202, R206, R214). -/

namespace Sys2Proof.Machine

/-! ### Frozen machines -/

theorem frozen_eq_true_iff {s : State} : s.frozen = true ↔ s.halted = true ∨ s.fault ≠ none := by
  rw [State.frozen, Bool.or_eq_true, Option.isSome_iff_ne_none]

theorem frozen_eq_false_iff {s : State} : s.frozen = false ↔ s.halted = false ∧ s.fault = none := by
  rw [State.frozen, Bool.or_eq_false_iff, Option.isSome_eq_false_iff, Option.isNone_iff_eq_none]

/-- Settles O9: steps, meanings and cycles are all clock cycles, and `clockCycle_frozen` holds the state. -/
theorem frozenMachineNeverChanges : Obligations.FrozenMachineNeverChanges := by
  intro s stopped
  have frozen := frozen_eq_true_iff.mpr stopped
  refine ⟨run_of_frozen frozen, fun i => ?_, fun dec => clockCycle_frozen frozen⟩
  rw [exec_eq_clockCycle, clockCycle_frozen frozen]

section
variable {s : State} {v : Option RawFields}

/-! ### Fetch -/

theorem fetchRow_eq_flush (flush : flushSignal s = true) : fetchRow v s = .flush := by simp [fetchRow, flush]

theorem fetchRow_eq_stall (noFlush : flushSignal s = false) (stall : stallSignal v s = true) :
    fetchRow v s = .stall := by
  simp [fetchRow, noFlush, stall]

theorem fetchRow_eq_stop (noFlush : flushSignal s = false) (noStall : stallSignal v s = false)
    (stop : (s.fetchStopped || haltDec v s) = true) : fetchRow v s = .stop := by
  simp only [fetchRow, noFlush, noStall, stop, Bool.false_eq_true, if_false, if_true]

theorem fetchRow_eq_normal (noFlush : flushSignal s = false) (noStall : stallSignal v s = false)
    (go : (s.fetchStopped || haltDec v s) = false) : fetchRow v s = .normal := by
  simp only [fetchRow, noFlush, noStall, go, Bool.false_eq_true, if_false]

end

/-- Settles O15: each hypothesis picks a row, and each output of the Fetch unit is that row's. -/
theorem fetchUnitRows : Obligations.FetchUnitRows := by
  intro s t h running noFault
  obtain ⟨rfl, -⟩ := step_commits h running noFault
  refine ⟨fun flush => ?_, fun noFlush stall => ?_, fun noFlush noStall stop => ?_, fun noFlush noStall go => ?_⟩
  · have row := fetchRow_eq_flush (v := refdec s.ifid.instruction) flush
    simp [ifidNext, pcNext, instNoNext, fetchStoppedNext, row]
  · have row := fetchRow_eq_stall noFlush stall
    simp [ifidNext, pcNext, instNoNext, fetchStoppedNext, row]
  · have row := fetchRow_eq_stop noFlush noStall stop
    simp [ifidNext, pcNext, instNoNext, fetchStoppedNext, row]
  · have row := fetchRow_eq_normal noFlush noStall go
    have wrap : (s.pc + Config.pcStep).toNat = (s.pc.toNat + 4) % 2 ^ 32 := BitVec.toNat_add ..
    simpa [ifidNext, pcNext, instNoNext, fetchStoppedNext, row] using wrap

/-! ### Decode -/

section
variable {s : State} {v : Option RawFields}

theorem idexNext_of_flush (flush : flushSignal s = true) : idexNext v s = IdEx.bubble := if_pos flush

theorem idexNext_of_stall (stall : stallSignal v s = true) : idexNext v s = IdEx.bubble := by
  simp [idexNext, stall]

/-- A word that is not squashed and raises no error has a checked record (R191). -/
theorem decodeError_eq_none_iff (noFlush : flushSignal s = false) :
    decodeError v s = none ↔ ∃ d, decodeResult v s = .ok d := by
  unfold decodeError
  cases decodeResult v s <;> simp [noFlush]

theorem bankGet_ite_produces (o : Opcode) (r q : RegIdx) (b : Bank) (x : Word) :
    bankGet (if produces o r then bankSet b r x else b) q = if produces o r ∧ r = q then x else bankGet b q := by
  cases hp : produces o r with
  | false => simp
  | true => simp [bankGet_bankSet, produces_ne_zero hp, eq_comm (a := q)]

/-- An entry of the bank that Writeback leaves (R210). -/
theorem bankGet_regsAfterWb (s : State) (r : RegIdx) :
    bankGet s.regsAfterWb r =
      if s.memwb.opcode.writesReg = true ∧ s.memwb.destReg = r ∧ r ≠ 0 then s.memwb.result
      else bankGet s.regs.committed r := by
  have written : (produces s.memwb.opcode s.memwb.destReg = true ∧ s.memwb.destReg = r) ↔
      (s.memwb.opcode.writesReg = true ∧ s.memwb.destReg = r ∧ r ≠ 0) := by
    simp only [produces, Bool.and_eq_true, bne_iff_ne, and_assoc]
    exact and_congr_right fun _ => ⟨fun ⟨ne, h⟩ => ⟨h, h ▸ ne⟩, fun ⟨h, ne⟩ => ⟨h ▸ ne, h⟩⟩
  rw [State.regsAfterWb, bankGet_ite_produces, if_congr written rfl rfl]

/-- The bypass multiplexer, row by row (R192, R246). -/
theorem bypass_eq_ite (s : State) (r : RegIdx) (uses : Bool) :
    bypass s r uses =
      if r = 0 then 0
      else if uses = true ∧ s.memwb.opcode.writesReg = true ∧ s.memwb.destReg = r then s.memwb.result
      else bankGet s.regs.committed r := by
  by_cases zero : r = 0#5
  · simp [bypass, zero]
  have port : s.regs.readPort r = bankGet s.regs.committed r := if_neg zero
  cases uses with
  | false => simp [bypass, zero, port]
  | true => simp [bypass_eq, archReg, bankGet_regsAfterWb, zero]

end

/-- Settles O16: a bubble by the rows of R194, and otherwise the issued record, whose operands are the bypass's. -/
theorem decodeStageLatches : Obligations.DecodeStageLatches := by
  intro s t h running noFault
  obtain ⟨rfl, noError⟩ := step_commits h running noFault
  rw [State.commit_idex]
  refine ⟨?_, fun noFlush noStall => ?_⟩
  · rintro (flush | stall | empty)
    · exact idexNext_of_flush flush
    · exact idexNext_of_stall stall
    · rw [empty, IfId.bubble_instruction, refdec_zero]
      exact idexNext_bubble empty _ rfl
  · obtain ⟨-, noDecodeError, -⟩ := cycleError_eq_none.mp noError
    obtain ⟨d, hd⟩ := (decodeError_eq_none_iff noFlush).mp noDecodeError
    rw [idexNext_issued noFlush noStall hd]
    exact ⟨d, hd, rfl, rfl, rfl, rfl, rfl, rfl, rfl, rfl, bypass_eq_ite s _ _, bypass_eq_ite s _ _⟩

/-! ### Execute -/

theorem branchTaken_eq_true_iff {o : Opcode} {a b : Word} :
    branchTaken o a b = true ↔ (o = .beq ∧ a = b) ∨ (o = .bne ∧ a ≠ b) := by
  cases o <;> simp [branchTaken]

theorem branchTarget_toNat (pc immediate : Word) :
    (branchTarget pc immediate).toNat = (pc.toNat + 4 + immediate.toNat * 4) % 2 ^ 32 := by
  change (pc + BitVec.ofNat 32 4 + immediate <<< 2).toNat = _
  simp only [BitVec.toNat_add, BitVec.toNat_shiftLeft, Nat.shiftLeft_eq, BitVec.toNat_ofNat]
  omega

/-- Settles O17: the fields of `exmemNext`, with the branch's outcome and target as arithmetic. -/
theorem executeStageLatches : Obligations.ExecuteStageLatches := by
  intro s t h running noFault
  obtain ⟨rfl, -⟩ := step_commits h running noFault
  rw [State.commit_exmem]
  exact ⟨rfl, rfl, rfl, rfl, fun imm => congrArg (alu _ _) (if_pos imm),
    fun noImm => congrArg (alu _ _) (if_neg (by simp [noImm])), branchTaken_eq_true_iff, branchTarget_toNat _ _,
    exmemNext_bubble⟩

/-! ### Memory -/

/-- Where Memory raises nothing, the address of a load or a store is a word address (R205). -/
theorem isWordAddress_of_memError_eq_none {s : State} (h : memError s = none)
    (access : s.exmem.opcode = .lw ∨ s.exmem.opcode = .sw) : isWordAddress s.exmem.result = true := by
  by_contra misaligned
  rw [memError_eq_some_iff.mpr ⟨⟨access, isWordAddress_eq_false_iff.mp (by simpa using misaligned)⟩, rfl⟩] at h
  cases h

theorem Memory.readByte_writeWord_outside {m : Memory} (hm : m.wf) {a : Word} (ha : isWordAddress a = true) (v : Word)
    {k : Nat} (hk : k < a.toNat ∨ a.toNat + 4 ≤ k) : (m.writeWord a v).readByte k = m.readByte k := by
  refine Memory.readByte_writeWord_of_ne hm v fun i hi => ?_
  rw [byteAddr_of_aligned ha hi]
  omega

/-- Settles O18: the load's word by `memResult_eq`, the store's write by `dmemNext_eq` and the laws of `writeWord`. -/
theorem memoryStageReadsAndWrites : Obligations.MemoryStageReadsAndWrites := by
  intro s t wf h running noFault
  obtain ⟨rfl, noError⟩ := step_commits h running noFault
  obtain ⟨noMemError, -, -⟩ := cycleError_eq_none.mp noError
  have aligned := isWordAddress_of_memError_eq_none noMemError
  rw [State.commit_memwb, State.commit_dmem, dmemNext_eq, State.dmemAfterMem]
  refine ⟨rfl, rfl, rfl, fun load => ⟨(memResult_eq s).trans (if_pos load), aligned (.inl load)⟩,
    fun noLoad => (memResult_eq s).trans (if_neg noLoad), fun store => ?_, fun noStore => if_neg noStore,
    memwbNext_bubble⟩
  rw [if_pos store]
  exact ⟨Memory.readWord_writeWord_self wf _ _, aligned (.inr store),
    fun k => Memory.readByte_writeWord_outside wf (aligned (.inr store)) _⟩

/-! ### Writeback -/

/-- Settles O19: the clock edge completes the write of the instruction in Writeback in both banks. -/
theorem writebackCommits : Obligations.WritebackCommits := by
  intro s t banks h running noFault
  obtain ⟨rfl, -⟩ := step_commits h running noFault
  obtain ⟨notHalted, -⟩ := frozen_eq_false_iff.mp running
  rw [State.commit_regs, regsNext_committed banks.1, State.commit_halted]
  refine ⟨fun writes dest => ?_, fun r other => ?_, ?_, ?_⟩
  · rw [bankGet_regsAfterWb, if_pos ⟨writes, rfl, dest⟩]
  · rw [bankGet_regsAfterWb, if_neg other]
  · exact (regsNext_pending s).trans (regsNext_committed banks.1)
  · simp [haltedNext, notHalted]

/-! ### The check of the PC -/

/-- Settles O32: without an older error the cycle's error is Fetch's, which only the fourth row raises. -/
theorem misalignedFetchRaises : Obligations.MisalignedFetchRaises := by
  intro s running noMemError misaligned f hf
  have hd : decodeResult (refdec s.ifid.instruction) s = .ok f := hf
  have onlyFetch : cycleError (refdec s.ifid.instruction) s = fetchError (refdec s.ifid.instruction) s := by
    simp [cycleError, noMemError, decodeError, hd]
  rw [step_eq_cycleWith_refdec]
  refine ⟨fun noFlush noStall notStopped notHalt => ?_, fun noFetch => ⟨_, rfl, ?_⟩⟩
  · have row : fetchRow (refdec s.ifid.instruction) s = .normal :=
      fetchRow_eq_normal noFlush noStall (by simp [notStopped, haltDec, hd, notHalt])
    have error : fetchError (refdec s.ifid.instruction) s = some ⟨.misalignedAccess s.pc, s.nextInstNo⟩ := by
      simp [fetchError, row, isWordAddress_eq_false_iff.mpr misaligned]
    exact congrArg Host.Outcome.next (clockCycle_error running (onlyFetch.trans error))
  · have noError : fetchError (refdec s.ifid.instruction) s = none := by
      rcases fetchRow_cases (refdec s.ifid.instruction) s with ⟨row, -⟩ | ⟨row, -⟩ | ⟨row, -⟩ |
        ⟨-, noFlush, noStall, notStopped, noHalt⟩
      · simp [fetchError, row]
      · simp [fetchError, row]
      · simp [fetchError, row]
      · have notHalt : f.opcode ≠ .halt := by simpa [haltDec, hd, noFlush] using noHalt
        simp [noFlush, noStall, notStopped, notHalt] at noFetch
    rw [cycleWith, clockCycle_commit (by simp [State.commits, running, onlyFetch, noError])]
    exact (frozen_eq_false_iff.mp running).2

end Sys2Proof.Machine
end

section
/-! SUPPORT. The hazard unit of 51_hazard_forwarding.md: where a forwarded operand comes from (R240), when the stall is
asserted and what its cycle does (R250, R251), and the cycle of a taken branch (R254, R256). -/

namespace Sys2Proof.Machine

section
variable {s : State} {v : Option RawFields}

/-! ### Forwarding -/

/-- An operand that is not needed keeps its latched value (R240). -/
@[simp] theorem forward_not_needed (s : State) (r : RegIdx) (x : Word) : forward s r x false = x := by simp [forward]

/-- Of a register other than 0, every instruction with that destination that writes a register is a producer (R232). -/
theorem produces_and_dest_iff {o : Opcode} {dest r : RegIdx} (ne : r ≠ 0#5) :
    (produces o dest = true ∧ dest = r) ↔ (o.writesReg = true ∧ dest = r) := by
  simp only [produces, Bool.and_eq_true, bne_iff_ne, and_assoc]
  exact and_congr_right fun _ => ⟨And.right, fun same => ⟨same ▸ ne, same⟩⟩

/-- The forwarding multiplexer of a needed operand, row by row (R240 to R242). -/
theorem forward_needed_eq_ite (s : State) (r : RegIdx) (x : Word) :
    forward s r x true =
      if s.exmem.opcode.writesReg = true ∧ s.exmem.opcode ≠ .lw ∧ s.exmem.destReg = r ∧ r ≠ 0 then s.exmem.result
      else if s.memwb.opcode.writesReg = true ∧ s.memwb.destReg = r ∧ r ≠ 0 then s.memwb.result
      else x := by
  by_cases zero : r = 0#5
  · simp [forward, zero]
  · have fromMem : (produces s.exmem.opcode s.exmem.destReg = true ∧ s.exmem.opcode ≠ .lw) ∧ s.exmem.destReg = r ↔
        s.exmem.opcode.writesReg = true ∧ s.exmem.opcode ≠ .lw ∧ s.exmem.destReg = r := by
      rw [and_right_comm, produces_and_dest_iff zero, and_right_comm, and_assoc]
    simp [forward, zero, fromMem, produces_and_dest_iff zero]

/-- A producer in EX/MEM that is no load is the nearest one (R241). -/
theorem forward_of_exmem {r : RegIdx} {x : Word} (writes : s.exmem.opcode.writesReg = true)
    (noLoad : s.exmem.opcode ≠ .lw) (dest : s.exmem.destReg = r) (ne : r ≠ 0) :
    forward s r x true = s.exmem.result := by
  rw [forward_needed_eq_ite, if_pos ⟨writes, noLoad, dest, ne⟩]

/-- A producer in MEM/WB is taken where EX/MEM holds none (R241). -/
theorem forward_of_memwb {r : RegIdx} {x : Word}
    (notMem : ¬ (s.exmem.opcode.writesReg = true ∧ s.exmem.opcode ≠ .lw ∧ s.exmem.destReg = r ∧ r ≠ 0))
    (fromWb : s.memwb.opcode.writesReg = true ∧ s.memwb.destReg = r ∧ r ≠ 0) :
    forward s r x true = s.memwb.result := by
  rw [forward_needed_eq_ite, if_neg notMem, if_pos fromWb]

/-! ### The stall -/

theorem Opcode.needs_eq_true_iff {o : Opcode} {src1 src2 r : RegIdx} :
    o.needs src1 src2 r = true ↔ (o.uses1 = true ∧ src1 = r) ∨ (o.uses2 = true ∧ src2 = r) := by
  simp [Opcode.needs]

theorem loadUse_eq_true_iff {d : Decoded} :
    loadUse s d = true ↔ s.idex.opcode = .lw ∧ s.idex.destReg ≠ 0 ∧
      d.opcode.needs d.src1Reg d.src2Reg s.idex.destReg = true := by
  simp [loadUse, and_assoc]

theorem stallSignal_eq_true_iff :
    stallSignal v s = true ↔ flushSignal s = false ∧ ∃ d, decodeResult v s = .ok d ∧ loadUse s d = true := by
  unfold stallSignal
  cases decodeResult v s <;> simp

/-- Only a load in Execute holds the word in Decode (R250). -/
theorem stallSignal_of_not_load (noLoad : s.idex.opcode ≠ .lw) : stallSignal v s = false := by
  by_contra stall
  obtain ⟨-, d, -, use⟩ := stallSignal_eq_true_iff.mp (by simpa using stall)
  exact noLoad (loadUse_eq_true_iff.mp use).1

/-- A stall cycle without a bad data address is a clock edge: the word in Decode has a record, and nothing is fetched. -/
theorem clockCycle_of_stall (running : s.frozen = false) (noMemError : memError s = none)
    (stall : stallSignal v s = true) : clockCycle v s = s.commit v := by
  obtain ⟨noFlush, d, hd, -⟩ := stallSignal_eq_true_iff.mp stall
  have noDecodeError : decodeError v s = none := (decodeError_eq_none_iff noFlush).mpr ⟨d, hd⟩
  have noFetchError : fetchError v s = none := by simp [fetchError, fetchRow_eq_stall noFlush stall]
  have noError := cycleError_eq_none.mpr ⟨noMemError, noDecodeError, noFetchError⟩
  exact clockCycle_commit (by simp [State.commits, running, noError])

/-! ### The flush -/

/-- Under a flush the decoder's answer reaches no field of the next state (R254). -/
theorem commit_eq_of_flushSignal (flush : flushSignal s = true) (v w : Option RawFields) : s.commit v = s.commit w := by
  simp [State.commit, pcNext, ifidNext, idexNext, instNoNext, fetchStoppedNext, fetchRow_eq_flush flush, flush]

/-- A cycle of a taken branch without a bad data address is the same clock edge whatever the decoder answers: the younger
words raise nothing (R254, R256). -/
theorem clockCycle_of_flushSignal (running : s.frozen = false) (flush : flushSignal s = true)
    (noMemError : memError s = none) (v w : Option RawFields) : clockCycle v s = s.commit w := by
  have noDecodeError : decodeError v s = none := if_pos flush
  have noFetchError : fetchError v s = none := by simp [fetchError, fetchRow_eq_flush flush]
  have noError := cycleError_eq_none.mpr ⟨noMemError, noDecodeError, noFetchError⟩
  rw [clockCycle_commit (by simp [State.commits, running, noError])]
  exact commit_eq_of_flushSignal flush v w

end

/-! ### The statements -/

/-- Settles O14: the rows of `forward_needed_eq_ite`. -/
theorem forwardTakesNearestProducer : Obligations.ForwardTakesNearestProducer := by
  intro s r x fromMem fromWb
  refine ⟨forward_not_needed s r x, ?_, forward_of_memwb, fun notMem notWb => ?_, rfl, rfl⟩
  · rintro ⟨writes, noLoad, dest, ne⟩
    exact forward_of_exmem writes noLoad dest ne
  · rw [forward_needed_eq_ite, if_neg notMem, if_neg notWb]

/-- Settles O20: the load-use test spelled out, and the clock edge in the row of R186 that holds the fetch. -/
theorem stallHoldsFetchAndEmptiesExecute : Obligations.StallHoldsFetchAndEmptiesExecute := by
  intro s d hd
  have hd : decodeResult (refdec s.ifid.instruction) s = .ok d := hd
  refine ⟨?_, fun stall running noMemError => ⟨_, step_eq_cycleWith_refdec s, ?_⟩⟩
  · simp [stallSignal_eq_true_iff, hd, loadUse_eq_true_iff, Opcode.needs_eq_true_iff]
  · obtain ⟨noFlush, -⟩ := stallSignal_eq_true_iff.mp stall
    obtain ⟨-, noFault⟩ := frozen_eq_false_iff.mp running
    have row := fetchRow_eq_stall noFlush stall
    rw [cycleWith, clockCycle_of_stall running noMemError stall]
    simp [noFault, pcNext, ifidNext, instNoNext, row, idexNext_of_stall stall]

/-- Settles O22: an ALU instruction is neither a load nor a branch, and one cycle on it is the producer in EX/MEM. -/
theorem backToBackResultIsForwarded : Obligations.BackToBackResultIsForwarded := by
  intro s t h running noFault isAlu dest
  obtain ⟨rfl, -⟩ := step_commits h running noFault
  have noLoad : s.idex.opcode ≠ .lw := by rcases isAlu with o | o <;> simp [o]
  have noBranch : s.idex.opcode.isBranch = false := by rcases isAlu with o | o <;> simp [o, Opcode.isBranch]
  have writes : s.idex.opcode.writesReg = true := by rcases isAlu with o | o <;> simp [o, Opcode.writesReg]
  have forwarded (x : Word) : forward (s.commit (refdec s.ifid.instruction)) s.idex.destReg x true =
      alu s.idex.aluOp (operandA s) (aluInputB s) := forward_of_exmem writes noLoad rfl dest
  refine ⟨stallSignal_of_not_load noLoad, flushSignal_of_not_branch noBranch, fun uses same => ?_, fun uses same => ?_⟩
  · rw [operandA, uses, same, forwarded]
  · rw [operandB, uses, same, forwarded]

/-- Settles O23: the step, the meanings and the cycles are clock cycles that differ in the decoder's answer only, which a
flush makes irrelevant. -/
theorem flushSquashesYoungerWords : Obligations.FlushSquashesYoungerWords := by
  intro s running flush noMemError
  have edge := fun v => clockCycle_of_flushSignal running flush noMemError v none
  obtain ⟨pc, ifid, idex⟩ := commit_of_flushSignal none flush
  obtain ⟨-, noFault⟩ := frozen_eq_false_iff.mp running
  have row := fetchRow_eq_flush (v := none) flush
  refine ⟨s.commit none, ?_, fun i => ?_, fun dec => edge _, noFault, ifid, idex, pc, rfl,
    isBranch_of_flushSignal flush, ?_, ?_⟩
  · rw [step_eq_cycleWith_refdec, cycleWith, edge]
  · rw [exec_eq_clockCycle, edge]
  · simp [instNoNext, row]
  · simp [fetchStoppedNext, row]

end Sys2Proof.Machine
end

section
/-! SUPPORT. The errors of 60_exceptions.md: Decode's `UnknownOpcode` (R115, R273), the cycle that raises an error (R274),
and the cycle number its report carries (R275). -/

namespace Sys2Proof.Machine

/-! ### Decode's error -/

/-- The check reports an answer outside either enum as an unknown word, before it looks at the indices (R115). -/
theorem checkFields_unknownOpcode (word : Word) {f : RawFields}
    (outside : Opcode.ofCode f.opcode = none ∨ AluOp.ofCode f.aluOp = none) :
    checkFields word (some f) = .error (.unknownOpcode word) := by
  rcases outside with noOpcode | noAluOp
  · cases ha : AluOp.ofCode f.aluOp <;> simp [checkFields, noOpcode, ha]
  · cases ho : Opcode.ofCode f.opcode <;> simp [checkFields, noAluOp, ho]

section
variable {s t u : State} {v : Option RawFields}

/-- Decode's error stops the cycle when the word is not squashed and no older instruction raises one (R191, R276). -/
theorem clockCycle_of_decodeResult_error {e : Fault} (running : s.frozen = false) (noFlush : flushSignal s = false)
    (noMemError : memError s = none) (he : decodeResult v s = .error e) :
    clockCycle v s = s.raise ⟨e, s.ifid.instNo⟩ :=
  clockCycle_error running (by simp [cycleError, noMemError, decodeError, noFlush, he])

/-! ### The failing cycle and its number -/

/-- A step from a state without fault either leaves none, by standing still on a halted machine or by a clock edge, or
raises an error. -/
theorem step_cases_of_no_fault (noFault : s.fault = none) (h : step s = .next t) :
    (s.frozen = true ∧ t = s) ∨ (∃ e, t = s.raise e) ∨ (t.fault = none ∧ t.cycles = s.cycles + 1) := by
  cases (step_eq_cycleWith_refdec s).symm.trans h
  rcases clockCycle_cases (refdec s.ifid.instruction) s with ⟨frozen, still⟩ | ⟨e, -, -, raised⟩ | ⟨-, -, edge⟩
  · exact .inl ⟨frozen, still⟩
  · exact .inr (.inl ⟨e, raised⟩)
  · refine .inr (.inr ?_)
    rw [cycleWith, edge]
    exact ⟨noFault, rfl⟩

/-- A run from a state without fault to one with a fault commits some cycles without one, and the report's number is one
past all the cycles committed by then. -/
theorem run_reaches_fault {n : Nat} {r : ErrorReport} (noFault : s.fault = none) (h : core.run n s = .next u)
    (hr : u.fault = some r) :
    ∃ k w, r.cycle = s.cycles + k + 1 ∧ k < n ∧ core.run k s = .next w ∧ w.fault = none ∧ step w = .next u := by
  induction n generalizing s with
  | zero =>
    cases h
    rw [noFault] at hr
    cases hr
  | succ n ih =>
    obtain ⟨t, first⟩ := step_answers_next s
    have rest := (run_succ_of_step n first).symm.trans h
    rcases step_cases_of_no_fault noFault first with ⟨frozen, -⟩ | ⟨e, rfl⟩ | ⟨noFault', counted⟩
    · cases (run_of_frozen frozen (n + 1)).symm.trans h
      rw [noFault] at hr
      cases hr
    · have stopped : (s.raise e).frozen = true := frozen_eq_true_iff.mpr (.inr (by simp))
      cases (run_of_frozen stopped n).symm.trans rest
      cases hr
      exact ⟨0, s, rfl, n.succ_pos, rfl, noFault, first⟩
    · obtain ⟨k, w, number, before, reach, noFaultBefore, last⟩ := ih noFault' rest
      exact ⟨k + 1, w, by omega, by omega, (run_succ_of_step k first).trans reach, noFaultBefore, last⟩

end

/-! ### The statements -/

/-- Settles O27: of the three things such a step can be, only raising an error leaves a fault. -/
theorem errorCommitsNothing : Obligations.ErrorCommitsNothing := by
  intro s t h noFault fault
  rcases step_cases_of_no_fault noFault h with ⟨-, rfl⟩ | ⟨e, rfl⟩ | ⟨noFault', -⟩
  · exact absurd noFault fault
  · exact ⟨_, rfl, rfl⟩
  · exact absurd noFault' fault

/-- Settles O28: `run_reaches_fault` from reset, where no cycle has been committed and there is no fault. -/
theorem reportNumbersFailingCycle : Obligations.ReportNumbersFailingCycle := by
  intro p n u r h hr
  simpa using run_reaches_fault (State.resetWith_fault p) h hr

/-- Settles O30: either answer fails the check with `UnknownOpcode`, which is then the cycle's error. -/
theorem unknownWordRaises : Obligations.UnknownWordRaises := by
  intro dec s running noFlush noMemError unmapped
  have check : decodeResult (dec s.ifid.instruction) s = .error (.unknownOpcode s.ifid.instruction) := by
    rcases unmapped with unknown | ⟨f, answer, outside⟩
    · rw [unknown]
      exact checkFields_none _
    · rw [answer]
      exact checkFields_unknownOpcode _ outside
  exact clockCycle_of_decodeResult_error running noFlush noMemError check

end Sys2Proof.Machine
end

section
/-! SUPPORT. The view of an invariant state and a run's memory and registers (R326). -/

namespace Sys2Proof.Machine

/-- Settles O57: two steps carry a store in Execute through Memory, three carry a result in Execute through Writeback. -/
theorem inFlightInstructionsRetire : Obligations.InFlightInstructionsRetire := fun _ inv =>
  ⟨fun _ run noFault => run_two_dmem inv run noFault, fun _ run noFault => run_three_committed inv run noFault⟩

end Sys2Proof.Machine
end

section
/-! SUPPORT. One cycle with any decoder that meets the contract of R91: the invariant (R216), and the architectural view,
which a cycle that issues nothing leaves as it is and a cycle that issues a record moves by that record's sequential
effect (R217, R218). -/

namespace Sys2Proof.Machine

/-! ### The contract and the invariant -/

section
variable {dec : Decoder}

/-- A word that a contract decoder knows has a checked record, and any other is an unknown opcode (R91). -/
theorem DecodeContract.checkFields_cases (contract : DecodeContract dec) (w : Word) :
    (∃ d, (dec w).isSome = true ∧ checkFields w (dec w) = .ok d) ∨
    ((dec w).isSome = false ∧ checkFields w (dec w) = .error (.unknownOpcode w)) := by
  cases hw : dec w with
  | none => exact .inr ⟨rfl, rfl⟩
  | some f =>
    obtain ⟨d, hd⟩ := contract.members w f hw
    exact .inl ⟨d, rfl, hd⟩

theorem DecodeContract.keepsContract (contract : DecodeContract dec) (s : State) :
    KeepsContract (dec s.ifid.instruction) s where
  noDest d hd noWrite := by
    unfold decodeResult at hd
    cases hw : dec s.ifid.instruction with
    | none => simp [hw] at hd
    | some f => exact contract.noDest _ f d hw (hw ▸ hd) noWrite
  emptyWord empty := by rw [empty, IfId.bubble_instruction]; exact contract.zeroWord

theorem cycleWith_keeps_pipelineInv (contract : DecodeContract dec) {s : State} (inv : s.PipelineInv) :
    (cycleWith dec s).PipelineInv :=
  clockCycle_keeps_pipelineInv inv (contract.keepsContract s)

end

/-- Settles O51: `step_keeps_pipelineInv`, which takes the invariant's conjuncts one by one over a clock edge. -/
theorem stepKeepsPipelineInvariant : Obligations.StepKeepsPipelineInvariant :=
  fun _ _ inv h => step_keeps_pipelineInv inv h

/-- Settles O52: a contract decoder's answer is all that the invariant asks of a cycle. -/
theorem anyContractDecoderKeepsInvariant : Obligations.AnyContractDecoderKeepsInvariant :=
  fun _ contract _ inv => cycleWith_keeps_pipelineInv contract inv

section
variable {s : State} {v : Option RawFields} {d : Decoded}

/-! ### Which word goes to Execute -/

theorem issues_eq_true_iff :
    s.issues v = true ↔ s.ifid ≠ IfId.bubble ∧ flushSignal s = false ∧ stallSignal v s = false := by
  simp [State.issues, and_assoc]

theorem issues_eq_false_iff :
    s.issues v = false ↔ flushSignal s = true ∨ s.ifid = IfId.bubble ∨ stallSignal v s = true := by
  rw [← Bool.not_eq_true, issues_eq_true_iff]
  cases flushSignal s <;> cases stallSignal v s <;> simp

/-- An empty IF/ID decodes to the all-zero record, which is neither held nor a HALT (R91 (a), R191). -/
theorem signals_of_empty (contract : KeepsContract v s) (empty : s.ifid = IfId.bubble) :
    decodeResult v s = .ok Decoded.zero ∧ stallSignal v s = false ∧ haltDec v s = false := by
  have zero : decodeResult v s = .ok Decoded.zero := by rw [contract.emptyWord empty]; exact checkFields_nop _
  have noNeed : ∀ r, Decoded.zero.opcode.needs Decoded.zero.src1Reg Decoded.zero.src2Reg r = false := fun _ => rfl
  exact ⟨zero, by simp [stallSignal, zero, loadUse, noNeed], by simp [haltDec, zero, Decoded.zero]⟩

/-- A word that does not go to Execute leaves a bubble there (R194), and stops no fetch. -/
theorem bubble_of_not_issues (contract : KeepsContract v s) (idle : s.issues v = false) :
    idexNext v s = IdEx.bubble ∧ haltDec v s = false := by
  rcases issues_eq_false_iff.mp idle with flush | empty | stall
  · exact ⟨idexNext_of_flush flush, by simp [haltDec, flush]⟩
  · exact ⟨idexNext_of_empty contract empty, (signals_of_empty contract empty).2.2⟩
  · refine ⟨idexNext_of_stall stall, ?_⟩
    by_contra halt
    rw [stallSignal_of_haltDec (by simpa using halt)] at stall
    cases stall

/-! ### The view after a clock edge -/

/-- With Execute empty, the next instruction in program order is the word in Decode, or else the one Fetch is at. -/
theorem nextPc_of_idex_bubble {t : State} (empty : t.idex = IdEx.bubble) :
    t.nextPc = if t.ifid = IfId.bubble then t.pc else t.ifid.pc := by
  rw [State.nextPc, if_neg (by simp [empty, branchTaken])]

/-- A clock edge after which Execute is empty moves what was in flight on and adds nothing to it. -/
theorem commit_arch_of_idex_bubble (inv : s.PipelineInv) (empty : idexNext v s = IdEx.bubble) :
    (s.commit v).arch = { s.arch with pc := (s.commit v).nextPc } := by
  have advances := State.commit_advances inv v
  have idex : (s.commit v).idex = IdEx.bubble := empty
  refine ArchState.mk.injEq .. |>.mpr ⟨rfl, ?_, ?_⟩
  · simp only [State.regsAfterEx, idex, IdEx.bubble_destReg, produces_zero, advances.regsAfterMem]
    rfl
  · simp only [State.dmemAfterEx, idex, IdEx.bubble_opcode, advances.dmemAfterMem]
    rfl

/-- A clock edge that issues nothing leaves the view as it is: the address of the next instruction moves with it from
the taken branch to the PC, or from the PC to IF/ID. `nextInstNo` is not the bubble's 0, so a word just fetched is seen as
one (U11). -/
theorem commit_arch_of_not_issues (inv : s.PipelineInv) (contract : KeepsContract v s) (idle : s.issues v = false)
    (number : s.nextInstNo ≠ 0) : (s.commit v).arch = s.arch := by
  obtain ⟨empty, noHalt⟩ := bubble_of_not_issues contract idle
  have taken := flushSignal_eq inv
  rw [commit_arch_of_idex_bubble inv empty]
  suffices h : (s.commit v).nextPc = s.nextPc by rw [h]; rfl
  rw [nextPc_of_idex_bubble empty, State.commit_ifid, State.commit_pc, State.nextPc, ← taken]
  rcases fetchRow_cases v s with ⟨row, flush⟩ | ⟨row, noFlush, stall⟩ | ⟨row, noFlush, noStall, -⟩ |
    ⟨row, noFlush, noStall, -⟩
  · simp [ifidNext, pcNext, row, flush, flushTarget]
  · simp [ifidNext, pcNext, row, noFlush]
  · have emptyDecode : s.ifid = IfId.bubble := by simpa [State.issues, noFlush, noStall] using idle
    simp [ifidNext, pcNext, row, noFlush, emptyDecode]
  · have emptyDecode : s.ifid = IfId.bubble := by simpa [State.issues, noFlush, noStall] using idle
    have fetched : (⟨s.nextInstNo, s.imem.readWord s.pc, s.pc⟩ : IfId) ≠ IfId.bubble :=
      fun h => number (congrArg IfId.instNo h)
    simp [ifidNext, row, noFlush, emptyDecode, fetched]

/-- What Execute will compute for a record just issued is what the record computes on the view. -/
theorem commit_seqResult_of_issues (inv : s.PipelineInv) (issues : s.issues v = true) (hd : decodeResult v s = .ok d) :
    (s.commit v).seqResult = d.result s.arch := by
  have advances := State.commit_advances inv v
  obtain ⟨-, noFlush, noStall⟩ := issues_eq_true_iff.mp issues
  have idex : (s.commit v).idex = issued d s := idexNext_issued noFlush noStall hd
  rw [State.seqResult, State.seqA, State.seqB, advances.regsAfterMem, idex]
  rfl

/-- Only HALT stops the reference machine (R171). -/
theorem opcode_of_seqEffect_stopped {a : ArchState} (h : seqEffect d a = .stopped) : d.opcode = .halt := by
  obtain ⟨op, aluOp, src1, src2, dest, imm⟩ := d
  cases op with
  | nop | alur | addi | beq | bne => cases h
  | lw => rcases archLoad_cases a dest (alu aluOp (a.read src1) imm) with ⟨-, hl⟩ | ⟨-, hl⟩ <;> cases hl.symm.trans h
  | sw =>
    rcases archStore_cases a (alu aluOp (a.read src1) imm) (a.read src2) with ⟨-, hs⟩ | ⟨-, hs⟩ <;> cases hs.symm.trans h
  | halt => rfl

/-- An effect is an error exactly for LW and SW whose address is no word address, and it is the error of that address. -/
theorem seqEffect_eq_error_iff {a : ArchState} {e : Fault} :
    seqEffect d a = .error e ↔ (d.opcode = .lw ∨ d.opcode = .sw) ∧ e = .misalignedAccess (d.result a) ∧
      isWordAddress (d.result a) = false := by
  have address (access : d.opcode = .lw ∨ d.opcode = .sw) :
      alu d.aluOp (a.read d.src1Reg) d.immediate = d.result a := by
    rcases access with o | o <;> simp [Decoded.result, o, Opcode.usesImm]
  constructor
  · intro h
    obtain ⟨access, he, misaligned⟩ := seqEffect_error h
    rw [address access] at he misaligned
    exact ⟨access, he, misaligned⟩
  · rintro ⟨access, rfl, misaligned⟩
    have address := address access
    rcases access with o | o
    · simp [seqEffect, o, archLoad, address, misaligned]
    · simp [seqEffect, o, archStore, address, misaligned]

end

/-- Settles O56: the view after a clock edge, by whether it issues and what the record's effect comes to. -/
theorem pipelineFollowsSequentialMachine : Obligations.PipelineFollowsSequentialMachine := by
  intro dec s contract inv running number
  dsimp only
  intro noFault
  obtain ⟨edge, noError⟩ := clockCycle_of_no_fault running noFault
  rw [cycleWith, edge]
  refine ⟨fun idle => commit_arch_of_not_issues inv (contract.keepsContract s) idle number, fun issues => ?_⟩
  obtain ⟨full, noFlush, noStall⟩ := issues_eq_true_iff.mp issues
  obtain ⟨-, noDecodeError, -⟩ := cycleError_eq_none.mp noError
  obtain ⟨d, hd⟩ := (decodeError_eq_none_iff noFlush).mp noDecodeError
  refine ⟨d, hd, ?_⟩
  cases effect : seqEffect d s.arch with
  | next a =>
    have noHalt : d.opcode ≠ .halt := fun halt => by simp [seqEffect, halt] at effect
    exact (commit_arch_of_issues inv issues hd noHalt number).trans (after_of_seqEffect effect)
  | stopped =>
    have halt := haltDec_eq_true_iff.mpr ⟨noFlush, d, hd, opcode_of_seqEffect_stopped effect⟩
    rw [commit_arch_of_haltDec inv full halt]
    exact ⟨rfl, rfl, (commit_of_haltDec halt).2.2⟩
  | error e =>
    obtain ⟨access, he, -⟩ := seqEffect_eq_error_iff.mp effect
    rw [commit_seqResult_of_issues inv issues hd, State.commit_idex, idexNext_issued noFlush noStall hd]
    exact ⟨he, access⟩

end Sys2Proof.Machine
end

section
/-! SUPPORT. The pipeline and the sequential machine in step: what every state of a run from reset satisfies as long as
the reference machine has met no error, what one cycle makes of such a state, and how many cycles pass before the word the
view is at goes to Execute (R218, R278, R327). -/

namespace Sys2Proof.Machine

/-! ### Sound states -/

/-- A state of a run over the instruction memory `imem` in which nothing has failed and nothing in flight will: beside the
invariant, IF/ID holds the word at its address, the numbers have not wrapped (U11), and the accesses in Memory and in
Execute are aligned. -/
structure State.Sound (imem : Memory) (s : State) : Prop where
  inv : s.PipelineInv
  noFault : s.fault = none
  sameImem : s.imem = imem
  fetched : s.ifid = IfId.bubble ∨ s.ifid.instruction = imem.readWord s.ifid.pc
  numbered : s.cycles + 1 < 2 ^ 64 → 0 < s.nextInstNo.toNat ∧ s.nextInstNo.toNat ≤ s.cycles + 1
  memoryGood : memError s = none
  executeGood : s.idex.opcode = .lw ∨ s.idex.opcode = .sw → isWordAddress s.seqResult = true

section
variable {s t : State} {v : Option RawFields} {d : Decoded} {imem : Memory}

theorem State.Sound.number_ne_zero (sound : s.Sound imem) (bound : s.cycles + 1 < 2 ^ 64) : s.nextInstNo ≠ 0 := by
  intro zero
  have := (sound.numbered bound).1
  simp [zero] at this

theorem uses1_of_access {o : Opcode} (access : o = .lw ∨ o = .sw) : o.uses1 = true := by
  rcases access with rfl | rfl <;> rfl

/-- One clock edge on, an aligned access in Execute is a good one in Memory. -/
theorem memError_commit_eq_none (inv : s.PipelineInv) (v : Option RawFields)
    (aligned : s.idex.opcode = .lw ∨ s.idex.opcode = .sw → isWordAddress s.seqResult = true) :
    memError (s.commit v) = none := by
  rw [Option.eq_none_iff_forall_ne_some]
  intro e raised
  obtain ⟨⟨access, misaligned⟩, -⟩ := memError_eq_some_iff.mp raised
  have access : s.idex.opcode = .lw ∨ s.idex.opcode = .sw := access
  rw [State.commit_exmem, exmemNext_result inv (uses1_of_access access)] at misaligned
  exact misaligned (isWordAddress_iff.mp (aligned access))

/-- One clock edge on, a misaligned access in Execute is Memory's error (R205). -/
theorem memError_commit_of_misaligned (inv : s.PipelineInv) (v : Option RawFields)
    (access : s.idex.opcode = .lw ∨ s.idex.opcode = .sw) (misaligned : isWordAddress s.seqResult = false) :
    memError (s.commit v) = some ⟨.misalignedAccess s.seqResult, s.idex.instNo⟩ := by
  have result : (s.commit v).exmem.result = s.seqResult := exmemNext_result inv (uses1_of_access access)
  refine memError_eq_some_iff.mpr ⟨⟨access, ?_⟩, by rw [result]; rfl⟩
  rw [result]
  exact isWordAddress_eq_false_iff.mp misaligned

/-- With the PC aligned, Fetch raises nothing (R185). -/
theorem fetchError_of_aligned (v : Option RawFields) (aligned : isWordAddress s.pc = true) : fetchError v s = none := by
  unfold fetchError
  cases fetchRow v s with
  | flush | stall | stop => rfl
  | normal => exact if_pos aligned

/-- In a state of the invariant whose access in Memory is good, only Decode can raise an error. -/
theorem clockCycle_of_decodeError_none (inv : s.PipelineInv) (running : s.frozen = false) (noMemError : memError s = none)
    (noDecodeError : decodeError v s = none) : clockCycle v s = s.commit v ∧ cycleError v s = none := by
  obtain ⟨⟨pc, -⟩, -⟩ := inv
  have noError := cycleError_eq_none.mpr ⟨noMemError, noDecodeError, fetchError_of_aligned v pc⟩
  exact ⟨clockCycle_commit (by simp [State.commits, running, noError]), noError⟩

theorem commit_fetched (h : s.ifid = IfId.bubble ∨ s.ifid.instruction = s.imem.readWord s.ifid.pc)
    (v : Option RawFields) :
    (s.commit v).ifid = IfId.bubble ∨ (s.commit v).ifid.instruction = s.imem.readWord (s.commit v).ifid.pc := by
  rcases fetchRow_cases v s with ⟨row, -⟩ | ⟨row, -⟩ | ⟨row, -⟩ | ⟨row, -⟩ <;>
    simp only [State.commit_ifid, ifidNext, row]
  · exact .inl trivial
  · exact h
  · exact .inl trivial
  · exact .inr trivial

theorem instNoNext_cases (v : Option RawFields) (s : State) :
    instNoNext v s = s.nextInstNo ∨ instNoNext v s = s.nextInstNo + 1 := by
  rcases fetchRow_cases v s with ⟨row, -⟩ | ⟨row, -⟩ | ⟨row, -⟩ | ⟨row, -⟩ <;> simp [instNoNext, row]

/-- The next number grows by at most one a cycle, so it has not wrapped before 2^64 cycles (R41, U11). -/
theorem commit_numbered (h : s.cycles + 1 < 2 ^ 64 → 0 < s.nextInstNo.toNat ∧ s.nextInstNo.toNat ≤ s.cycles + 1)
    (v : Option RawFields) (bound : (s.commit v).cycles + 1 < 2 ^ 64) :
    0 < (s.commit v).nextInstNo.toNat ∧ (s.commit v).nextInstNo.toNat ≤ (s.commit v).cycles + 1 := by
  rw [State.commit_cycles] at *
  obtain ⟨pos, le⟩ := h (by omega)
  rcases instNoNext_cases v s with same | next
  · rw [State.commit_nextInstNo, same]
    omega
  · have noWrap : (s.nextInstNo + 1).toNat = s.nextInstNo.toNat + 1 := by
      rw [BitVec.toNat_add]
      exact Nat.mod_eq_of_lt (by simpa using by omega)
    rw [State.commit_nextInstNo, next, noWrap]
    omega

/-- A clock edge keeps a state sound if the access it puts into Execute is aligned. -/
theorem State.Sound.commit (sound : s.Sound imem) (contract : KeepsContract v s) (noError : cycleError v s = none)
    (aligned : (s.commit v).idex.opcode = .lw ∨ (s.commit v).idex.opcode = .sw →
      isWordAddress (s.commit v).seqResult = true) : (s.commit v).Sound imem where
  inv := commit_keeps_pipelineInv sound.inv contract noError
  noFault := sound.noFault
  sameImem := sound.sameImem
  fetched := by
    have fetched := sound.fetched
    rw [← sound.sameImem] at *
    exact commit_fetched fetched v
  numbered := commit_numbered sound.numbered v
  memoryGood := memError_commit_eq_none sound.inv v sound.executeGood
  executeGood := aligned

/-- Reset meets the invariant: all latches are empty (R56), so only the PC and register 0 say anything. -/
theorem resetWith_pipelineInv {p : Params} (wf : p.wellFormed = true) : (State.resetWith p).PipelineInv := by
  have pc : isWordAddress p.resetPc = true := by
    simp only [Params.wellFormed, Bool.and_eq_true] at wf
    exact wf.1.1
  have zero : bankGet (RegFile.ofInit p.initRegs).committed 0 = 0 := by rw [bankGet_ofInit]; rfl
  refine ⟨⟨pc, rfl, rfl⟩, ⟨rfl, zero⟩, ⟨fun _ => rfl, fun _ => rfl, fun _ => rfl⟩, nofun, nofun,
    ⟨?_, nofun, nofun, nofun⟩, ⟨nofun, nofun⟩, .inl rfl⟩
  simp

/-- A run from reset starts sound. -/
theorem resetWith_sound {p : Params} (wf : p.wellFormed = true) :
    (State.resetWith p).Sound (State.resetWith p).imem where
  inv := resetWith_pipelineInv wf
  noFault := rfl
  sameImem := rfl
  fetched := .inl rfl
  numbered _ := ⟨Nat.one_pos, Nat.le_refl 1⟩
  memoryGood := rfl
  executeGood := by simp

/-! ### The word that the view is at -/

/-- A machine that still fetches has not halted (R173). -/
theorem halted_eq_false_of_going (inv : s.PipelineInv) (going : s.fetchStopped = false) : s.halted = false := by
  obtain ⟨-, -, -, -, -, ⟨inFlight, -⟩, -⟩ := inv
  by_contra halted
  rw [inFlight.mpr (.inr (.inr (.inr (by simpa using halted))))] at going
  cases going

/-- A machine with a word in Decode still fetches (R259). -/
theorem going_of_full (inv : s.PipelineInv) (full : s.ifid ≠ IfId.bubble) : s.fetchStopped = false := by
  obtain ⟨-, -, -, -, quiet, -⟩ := inv
  by_contra stopped
  exact full (quiet (by simpa using stopped)).1

/-- A machine with an instruction in flight has not halted (R173). -/
theorem halted_eq_false_of_in_flight (inv : s.PipelineInv)
    (full : s.idex ≠ IdEx.bubble ∨ s.exmem ≠ ExMem.bubble ∨ s.memwb ≠ MemWb.bubble) : s.halted = false := by
  obtain ⟨-, -, -, -, -, ⟨-, -, -, drained⟩, -⟩ := inv
  by_contra halted
  obtain ⟨idex, exmem, memwb⟩ := drained (by simpa using halted)
  simp [idex, exmem, memwb] at full

variable {dec : Decoder}

/-- An unsquashed word in Decode is the one the reference machine decodes next, and the answer is the same. -/
theorem decodeResult_eq_seqDecode (sound : s.Sound imem) (full : s.ifid ≠ IfId.bubble) (noFlush : flushSignal s = false) :
    s.ifid.instruction = imem.readWord s.arch.pc ∧
      decodeResult (dec s.ifid.instruction) s = seqDecode dec imem s.arch := by
  have word : s.ifid.instruction = imem.readWord s.arch.pc := by
    rw [arch_pc_of_not_flushed sound.inv full noFlush]
    exact sound.fetched.resolve_left full
  exact ⟨word, by rw [decodeResult, seqDecode, word]⟩

/-! ### A cycle that issues nothing -/

/-- A cycle that issues nothing raises nothing: the word in Decode is squashed, held with its record, or a bubble. -/
theorem State.Sound.cycle_of_not_issues (contract : DecodeContract dec) (sound : s.Sound imem)
    (running : s.halted = false) (idle : s.issues (dec s.ifid.instruction) = false) :
    cycleWith dec s = s.commit (dec s.ifid.instruction) ∧ (cycleWith dec s).Sound imem := by
  have keeps := contract.keepsContract s
  have noDecodeError : decodeError (dec s.ifid.instruction) s = none := by
    cases noFlush : flushSignal s with
    | true => exact if_pos noFlush
    | false =>
      refine (decodeError_eq_none_iff noFlush).mpr ?_
      rcases issues_eq_false_iff.mp idle with flush | empty | stall
      · rw [noFlush] at flush
        cases flush
      · exact ⟨_, (signals_of_empty keeps empty).1⟩
      · obtain ⟨-, d, hd, -⟩ := stallSignal_eq_true_iff.mp stall
        exact ⟨d, hd⟩
  obtain ⟨edge, noError⟩ := clockCycle_of_decodeError_none sound.inv
    (frozen_eq_false_iff.mpr ⟨running, sound.noFault⟩) sound.memoryGood noDecodeError
  have edge : cycleWith dec s = s.commit (dec s.ifid.instruction) := edge
  refine ⟨edge, edge ▸ sound.commit keeps noError ?_⟩
  simp [(bubble_of_not_issues keeps idle).1]

/-- The cycles before the word that the view is at goes to Execute, if the fetch has not stopped: two after a taken branch
(R255), one while IF/ID is empty or the word is held (R252). -/
def State.waits (v : Option RawFields) (s : State) : Nat :=
  if flushSignal s then 2 else if s.ifid = IfId.bubble ∨ stallSignal v s = true then 1 else 0

theorem waits_eq_zero_iff : s.waits v = 0 ↔ s.issues v = true := by
  rw [issues_eq_true_iff, State.waits]
  cases flushSignal s <;> simp

theorem waits_le_two (v : Option RawFields) (s : State) : s.waits v ≤ 2 := by
  unfold State.waits
  split
  · omega
  · split <;> omega

/-- A cycle that issues nothing is one of them. -/
theorem waits_commit_of_not_issues (keeps : KeepsContract v s) (going : s.fetchStopped = false)
    (idle : s.issues v = false) (number : s.nextInstNo ≠ 0) (w : Option RawFields) :
    s.waits v = (s.commit v).waits w + 1 := by
  obtain ⟨empty, noHalt⟩ := bubble_of_not_issues keeps idle
  have noFlush' : flushSignal (s.commit v) = false := flushSignal_of_not_branch (by simp [empty, Opcode.isBranch])
  have noStall' : stallSignal w (s.commit v) = false := stallSignal_of_not_load (by simp [empty])
  have waits' : (s.commit v).waits w = if (s.commit v).ifid = IfId.bubble then 1 else 0 := by
    rw [State.waits, if_neg (by simp [noFlush']), if_congr (or_iff_left (by simp [noStall'])) rfl rfl]
  rw [waits', State.commit_ifid, State.waits]
  rcases fetchRow_cases v s with ⟨row, flush⟩ | ⟨row, noFlush, stall⟩ | ⟨-, -, -, stop⟩ | ⟨row, noFlush, noStall, -⟩
  · simp [ifidNext, row, flush]
  · have full : s.ifid ≠ IfId.bubble := fun h => by
      rw [(signals_of_empty keeps h).2.1] at stall
      cases stall
    simp [ifidNext, row, noFlush, stall, full]
  · simp [going, noHalt] at stop
  · have emptyDecode : s.ifid = IfId.bubble := by simpa [State.issues, noFlush, noStall] using idle
    have fetched : (⟨s.nextInstNo, s.imem.readWord s.pc, s.pc⟩ : IfId) ≠ IfId.bubble :=
      fun h => number (congrArg IfId.instNo h)
    simp [ifidNext, row, noFlush, emptyDecode, fetched]

/-- After that many cycles the word goes to Execute, and the view is still at it. -/
theorem State.Sound.cycles_to_issue (contract : DecodeContract dec) {n : Nat} (sound : s.Sound imem)
    (going : s.fetchStopped = false) (waits : s.waits (dec s.ifid.instruction) = n) (bound : s.cycles + n < 2 ^ 64) :
    (cyclesWith dec n s).Sound imem ∧
      (cyclesWith dec n s).issues (dec (cyclesWith dec n s).ifid.instruction) = true ∧
      (cyclesWith dec n s).arch = s.arch ∧ (cyclesWith dec n s).cycles = s.cycles + n := by
  induction n generalizing s with
  | zero => exact ⟨sound, waits_eq_zero_iff.mp waits, rfl, rfl⟩
  | succ n ih =>
    have keeps := contract.keepsContract s
    have idle : s.issues (dec s.ifid.instruction) = false := by
      by_contra issues
      rw [waits_eq_zero_iff.mpr (by simpa using issues)] at waits
      cases waits
    have number := sound.number_ne_zero (by omega)
    obtain ⟨edge, sound'⟩ := sound.cycle_of_not_issues contract (halted_eq_false_of_going sound.inv going) idle
    have fewer := waits_commit_of_not_issues keeps going idle number
      (dec (s.commit (dec s.ifid.instruction)).ifid.instruction)
    have going' : (cycleWith dec s).fetchStopped = false := by
      rw [edge, State.commit_fetchStopped, fetchStoppedNext_eq, going, (bubble_of_not_issues keeps idle).2]
      rfl
    have cycles' : (cycleWith dec s).cycles = s.cycles + 1 := by rw [edge]; rfl
    obtain ⟨sound'', issues, arch, cycles⟩ := ih sound' going' (by rw [edge]; omega) (by omega)
    rw [cyclesWith_succ]
    refine ⟨sound'', issues, arch.trans ?_, by omega⟩
    rw [edge, commit_arch_of_not_issues sound.inv keeps idle number]

/-! ### A cycle that issues a word -/

/-- What `issues` gives in a sound state, with the word in Decode as the reference machine's. -/
theorem State.Sound.issuing (sound : s.Sound imem) (issues : s.issues (dec s.ifid.instruction) = true) :
    s.frozen = false ∧ s.fetchStopped = false ∧ s.ifid.pc = s.arch.pc ∧
    s.ifid.instruction = imem.readWord s.arch.pc ∧
    decodeResult (dec s.ifid.instruction) s = seqDecode dec imem s.arch := by
  obtain ⟨full, noFlush, -⟩ := issues_eq_true_iff.mp issues
  have going := going_of_full sound.inv full
  exact ⟨frozen_eq_false_iff.mpr ⟨halted_eq_false_of_going sound.inv going, sound.noFault⟩, going,
    (arch_pc_of_not_flushed sound.inv full noFlush).symm, decodeResult_eq_seqDecode sound full noFlush⟩

section
variable (sound : s.Sound imem) (issues : s.issues (dec s.ifid.instruction) = true)
include sound issues

/-- A word that the decoder does not know raises its error in that cycle (R115). -/
theorem State.Sound.cycle_of_seqDecode_error {e : Fault} (he : seqDecode dec imem s.arch = .error e) :
    cycleWith dec s = s.raise ⟨e, s.ifid.instNo⟩ := by
  obtain ⟨running, -, -, -, same⟩ := sound.issuing issues
  obtain ⟨-, noFlush, -⟩ := issues_eq_true_iff.mp issues
  exact clockCycle_of_decodeResult_error running noFlush sound.memoryGood (same.trans he)

/-- A word with a record goes to Execute. -/
theorem State.Sound.cycle_of_seqDecode_ok (hd : seqDecode dec imem s.arch = .ok d) :
    cycleWith dec s = s.commit (dec s.ifid.instruction) ∧ cycleError (dec s.ifid.instruction) s = none ∧
      (cycleWith dec s).idex = issued d s := by
  obtain ⟨running, -, -, -, same⟩ := sound.issuing issues
  obtain ⟨-, noFlush, noStall⟩ := issues_eq_true_iff.mp issues
  have hd : decodeResult (dec s.ifid.instruction) s = .ok d := same.trans hd
  obtain ⟨edge, noError⟩ := clockCycle_of_decodeError_none sound.inv running sound.memoryGood
    ((decodeError_eq_none_iff noFlush).mpr ⟨d, hd⟩)
  exact ⟨edge, noError, by rw [cycleWith, edge]; exact idexNext_issued noFlush noStall hd⟩

/-- A record whose effect is no error keeps the state sound. -/
theorem State.Sound.cycle_of_no_error (contract : DecodeContract dec) (hd : seqDecode dec imem s.arch = .ok d)
    (noError : ∀ e, seqEffect d s.arch ≠ .error e) : (cycleWith dec s).Sound imem := by
  obtain ⟨-, -, -, -, same⟩ := sound.issuing issues
  obtain ⟨edge, noCycleError, idex⟩ := sound.cycle_of_seqDecode_ok issues hd
  rw [edge] at idex ⊢
  refine sound.commit (contract.keepsContract s) noCycleError fun access => ?_
  rw [commit_seqResult_of_issues sound.inv issues (same.trans hd)]
  rw [idex] at access
  by_contra misaligned
  exact noError _ (seqEffect_eq_error_iff.mpr ⟨access, rfl, by simpa using misaligned⟩)

/-- A record with which the reference machine goes on takes the view with it. -/
theorem State.Sound.cycle_of_next (contract : DecodeContract dec) {a : ArchState}
    (hd : seqDecode dec imem s.arch = .ok d) (effect : seqEffect d s.arch = .next a) (bound : s.cycles + 1 < 2 ^ 64) :
    (cycleWith dec s).Sound imem ∧ (cycleWith dec s).fetchStopped = false ∧ (cycleWith dec s).arch = a ∧
      (cycleWith dec s).cycles = s.cycles + 1 := by
  obtain ⟨-, going, -, -, same⟩ := sound.issuing issues
  obtain ⟨edge, -⟩ := sound.cycle_of_seqDecode_ok issues hd
  have noHalt : d.opcode ≠ .halt := fun halt => by simp [seqEffect, halt] at effect
  refine ⟨sound.cycle_of_no_error issues contract hd (by simp [effect]), ?_, ?_, by rw [edge]; rfl⟩
  · rw [edge, State.commit_fetchStopped, fetchStoppedNext_eq, going]
    simp [haltDec, same.trans hd, noHalt]
  · rw [edge, commit_arch_of_issues sound.inv issues (same.trans hd) noHalt (sound.number_ne_zero bound)]
    exact after_of_seqEffect effect

/-- A HALT goes to Execute and stops the fetch, with the view past it (R172). -/
theorem State.Sound.cycle_of_stopped (contract : DecodeContract dec) (hd : seqDecode dec imem s.arch = .ok d)
    (effect : seqEffect d s.arch = .stopped) :
    (cycleWith dec s).Sound imem ∧ (cycleWith dec s).fetchStopped = true ∧ (cycleWith dec s).idex.opcode = .halt ∧
      (cycleWith dec s).arch = { s.arch with pc := s.arch.pc + 4 } ∧ (cycleWith dec s).cycles = s.cycles + 1 := by
  obtain ⟨-, -, -, -, same⟩ := sound.issuing issues
  obtain ⟨full, noFlush, -⟩ := issues_eq_true_iff.mp issues
  obtain ⟨edge, -, idex⟩ := sound.cycle_of_seqDecode_ok issues hd
  have opcode := opcode_of_seqEffect_stopped effect
  have halt := haltDec_eq_true_iff.mpr ⟨noFlush, d, same.trans hd, opcode⟩
  refine ⟨sound.cycle_of_no_error issues contract hd (by simp [effect]), ?_, by rw [idex]; exact opcode, ?_,
    by rw [edge]; rfl⟩
  · rw [edge]
    exact (commit_of_haltDec halt).2.2
  · rw [edge]
    exact commit_arch_of_haltDec sound.inv full halt

end

end

end Sys2Proof.Machine
end

section
/-! SUPPORT. Whole runs of the pipeline from reset against whole runs of the sequential machine: the cycle count of R218
and R327, and which errors end a run (R278). -/

namespace Sys2Proof.Machine

section
variable {s : State} {d : Decoded} {a a' : ArchState} {e : Fault} {dec : Decoder} {imem : Memory} {fuel n : Nat}

/-! ### One instruction of a sequential run -/

/-- A run to a HALT is the HALT itself, or an instruction and a run to a HALT after it. -/
theorem seqRun_succ_cases {loaded : Option RegIdx} {r : SeqRun} (h : seqRun dec imem (fuel + 1) loaded a = some r) :
    ∃ d, seqDecode dec imem a = .ok d ∧
      ((seqEffect d a = .stopped ∧ r = ⟨a, 1, (d.stallsAfter loaded).toNat, 0⟩) ∨
      ∃ a' r', seqEffect d a = .next a' ∧ seqRun dec imem fuel d.loadTarget a' = some r' ∧
        r = ⟨r'.final, r'.executed + 1, r'.stalls + (d.stallsAfter loaded).toNat,
          r'.taken + (d.takesBranch a).toNat⟩) := by
  unfold seqRun at h
  split at h
  · cases h
  next d hd =>
  refine ⟨d, hd, ?_⟩
  split at h
  · cases h
  · next effect =>
    cases h
    exact .inl ⟨effect, rfl⟩
  · next a' effect =>
    split at h
    · cases h
    · next r' hr =>
      cases h
      exact .inr ⟨a', r', effect, hr, rfl⟩

/-- A step that is no error is the effect of the word's record. -/
theorem seqDecode_of_seqStep {o : SeqOutcome} (h : seqStep dec imem a = o) (noError : ∀ e, o ≠ .error e) :
    ∃ d, seqDecode dec imem a = .ok d ∧ seqEffect d a = o := by
  unfold seqStep at h
  split at h
  · next d hd => exact ⟨d, hd, h⟩
  · next e _ => exact absurd h.symm (noError e)

/-- An error that stops the reference machine stops its first step or a run after that step. -/
theorem seqError_succ_cases {final : ArchState} (h : seqError dec imem (fuel + 1) a = some (e, final)) :
    (seqStep dec imem a = .error e ∧ final = a) ∨
    ∃ a', seqStep dec imem a = .next a' ∧ seqError dec imem fuel a' = some (e, final) := by
  unfold seqError at h
  split at h
  · next step =>
    cases h
    exact .inl ⟨step, rfl⟩
  · cases h
  · next a' step => exact .inr ⟨a', step, h⟩

/-! ### The wait for the next instruction -/

/-- The load-use test of an instruction behind one just issued is that of the sequential run (R250, R327). -/
theorem loadUse_of_issued {t : State} (idex : t.idex = issued d s) (d' : Decoded) :
    loadUse t d' = d'.stallsAfter d.loadTarget := by
  unfold loadUse Decoded.stallsAfter Decoded.loadTarget
  rw [idex]
  by_cases load : d.opcode = .lw <;> by_cases dest : d.destReg = 0#5 <;> simp [issued, load, dest]

/-- A taken branch loads nothing, so nothing stalls behind it. -/
theorem stallsAfter_of_takesBranch (taken : d.takesBranch a = true) (d' : Decoded) :
    d'.stallsAfter d.loadTarget = false := by
  have noLoad : d.opcode ≠ .lw := fun load => by simp [Decoded.takesBranch, load, branchTaken] at taken
  simp [Decoded.loadTarget, noLoad, Decoded.stallsAfter]

/-- Behind an instruction just issued, the next one waits two cycles if it is a taken branch, and one if it loads what the
next one needs (R252, R255). -/
theorem State.Sound.waits_after_issue (sound : s.Sound imem) (issues : s.issues (dec s.ifid.instruction) = true)
    (contract : DecodeContract dec) (hd : seqDecode dec imem s.arch = .ok d) (effect : seqEffect d s.arch = .next a)
    (bound : s.cycles + 1 < 2 ^ 64) {d' : Decoded} (hd' : seqDecode dec imem a = .ok d') :
    (cycleWith dec s).waits (dec (cycleWith dec s).ifid.instruction) =
      2 * (d.takesBranch s.arch).toNat + (d'.stallsAfter d.loadTarget).toNat := by
  obtain ⟨-, -, -, -, same⟩ := sound.issuing issues
  obtain ⟨edge, -, idex⟩ := sound.cycle_of_seqDecode_ok issues hd
  obtain ⟨sound', -, arch, -⟩ := sound.cycle_of_next issues contract hd effect bound
  have advances : s.Advances (cycleWith dec s) := edge ▸ State.commit_advances sound.inv _
  have flush := flushSignal_of_issued sound'.inv advances idex
  cases taken : d.takesBranch s.arch with
  | true =>
    rw [stallsAfter_of_takesBranch taken, State.waits, flush, taken]
    rfl
  | false =>
    have noFlush := flush.trans taken
    have noHalt : d.opcode ≠ .halt := fun halt => by simp [seqEffect, halt] at effect
    have full : (cycleWith dec s).ifid ≠ IfId.bubble := by
      rw [edge, State.commit_ifid, ifidNext, fetchRow_of_issues sound.inv issues (same.trans hd) noHalt]
      exact fun h => sound.number_ne_zero bound (congrArg IfId.instNo h)
    have answer := (decodeResult_eq_seqDecode (dec := dec) sound' full noFlush).2
    rw [arch, hd'] at answer
    have stall : stallSignal (dec (cycleWith dec s).ifid.instruction) (cycleWith dec s) =
        d'.stallsAfter d.loadTarget := by
      simp [stallSignal, noFlush, answer, loadUse_of_issued idex]
    rw [State.waits, noFlush, stall]
    cases d'.stallsAfter d.loadTarget <;> simp [full]

/-! ### The run to a HALT -/

/-- The pipeline at a sound state whose view is `a`, with `c` cycles to wait beside the first instruction's own stall,
has the HALT in Execute after one cycle an instruction, one a stall and two a taken branch. -/
theorem cycles_of_seqRun (contract : DecodeContract dec) {loaded : Option RegIdx} {r : SeqRun}
    (run : seqRun dec imem fuel loaded a = some r) {c : Nat} (sound : s.Sound imem) (going : s.fetchStopped = false)
    (arch : s.arch = a)
    (waits : ∀ d, seqDecode dec imem a = .ok d →
      s.waits (dec s.ifid.instruction) = c + (d.stallsAfter loaded).toNat)
    (hn : n = c + r.executed + r.stalls + 2 * r.taken) (bound : s.cycles + n < 2 ^ 64) :
    (cyclesWith dec n s).Sound imem ∧ (cyclesWith dec n s).fetchStopped = true ∧
      (cyclesWith dec n s).idex.opcode = .halt ∧
      (cyclesWith dec n s).arch = { r.final with pc := r.final.pc + 4 } ∧
      (cyclesWith dec n s).cycles = s.cycles + n := by
  induction fuel generalizing s a loaded r c n with
  | zero => cases run
  | succ fuel ih =>
    obtain ⟨d, hd, next⟩ := seqRun_succ_cases run
    have wait := waits d hd
    generalize hk : s.waits (dec s.ifid.instruction) = k at wait
    have enough : k + 1 ≤ n := by
      rcases next with ⟨-, rfl⟩ | ⟨a', r', -, -, rfl⟩ <;> simp only at hn <;> omega
    obtain ⟨sound₁, issues, arch₁, cycles₁⟩ := sound.cycles_to_issue contract going hk (by omega)
    rw [arch] at arch₁
    obtain ⟨m, rfl⟩ : ∃ m, n = k + (m + 1) := ⟨n - (k + 1), by omega⟩
    rw [cyclesWith_add, cyclesWith_succ]
    rcases next with ⟨effect, rfl⟩ | ⟨a', r', effect, run', rfl⟩
    · obtain ⟨sound₂, stopped, halt, arch₂, cycles₂⟩ :=
        sound₁.cycle_of_stopped issues contract (arch₁ ▸ hd) (arch₁ ▸ effect)
      obtain rfl : m = 0 := by simp only at hn; omega
      rw [cyclesWith_zero]
      exact ⟨sound₂, stopped, halt, arch₂.trans (by rw [arch₁]), by omega⟩
    · obtain ⟨sound₂, going₂, arch₂, cycles₂⟩ :=
        sound₁.cycle_of_next issues contract (arch₁ ▸ hd) (arch₁ ▸ effect) (by omega)
      have waits₂ (d' : Decoded) (hd' : seqDecode dec imem a' = .ok d') :=
        sound₁.waits_after_issue issues contract (arch₁ ▸ hd) (arch₁ ▸ effect) (by omega) hd'
      rw [arch₁] at waits₂
      obtain ⟨sound₃, stopped, halt, arch₃, cycles₃⟩ :=
        ih run' sound₂ going₂ arch₂ waits₂ (n := m) (by simp only at hn; omega) (by omega)
      exact ⟨sound₃, stopped, halt, arch₃, by omega⟩

/-! ### The drain after a HALT -/

/-- Once the fetch has stopped, a cycle issues nothing, so it raises nothing and keeps the view (R174). -/
theorem State.Sound.cycle_of_stopped_fetch (contract : DecodeContract dec) (sound : s.Sound imem)
    (stopped : s.fetchStopped = true) (bound : s.cycles + 1 < 2 ^ 64) :
    (cycleWith dec s).Sound imem ∧ (cycleWith dec s).fetchStopped = true ∧ (cycleWith dec s).arch = s.arch ∧
      (cycleWith dec s).cycles ≤ s.cycles + 1 ∧
      (s.halted = false → cycleWith dec s = s.commit (dec s.ifid.instruction)) := by
  obtain ⟨-, -, -, -, quiet, -⟩ := sound.inv
  have keeps := contract.keepsContract s
  have idle : s.issues (dec s.ifid.instruction) = false := issues_eq_false_iff.mpr (.inr (.inl (quiet stopped).1))
  cases running : s.halted with
  | true =>
    have still : cycleWith dec s = s := clockCycle_frozen (frozen_eq_true_iff.mpr (.inl running))
    rw [still]
    exact ⟨sound, stopped, rfl, Nat.le_succ _, nofun⟩
  | false =>
    obtain ⟨edge, sound'⟩ := sound.cycle_of_not_issues contract running idle
    refine ⟨sound', ?_, ?_, by rw [edge]; exact Nat.le_refl _, fun _ => edge⟩ <;> rw [edge]
    · rw [State.commit_fetchStopped, fetchStoppedNext_eq, stopped]
      rfl
    · exact commit_arch_of_not_issues sound.inv keeps idle (sound.number_ne_zero bound)

/-- On a halted machine nothing is in flight: the view is what the machine holds. -/
theorem arch_of_halted (inv : s.PipelineInv) (halted : s.halted = true) :
    s.arch = ⟨s.pc, s.regs.committed, s.dmem⟩ := by
  have advances := State.advances_of_halted inv halted
  obtain ⟨-, -, -, -, quiet, ⟨inFlight, -, -, drained⟩, -⟩ := inv
  obtain ⟨idex, exmem, memwb⟩ := drained halted
  have ifid := (quiet (inFlight.mpr (.inr (.inr (.inr halted))))).1
  refine ArchState.mk.injEq .. |>.mpr ⟨?_, ?_, ?_⟩
  · rw [nextPc_of_idex_bubble idex, if_pos ifid]
  · rw [← advances.regsAfterMem, ← advances.regsAfterWb, ← advances.committed]
  · rw [← advances.dmemAfterMem, ← advances.dmem]

/-- A HALT in Execute halts the machine in exactly three cycles, without an error, and what the view holds is then in the
machine (R173, R326). -/
theorem State.Sound.cycles_of_halt (contract : DecodeContract dec) (sound : s.Sound imem)
    (stopped : s.fetchStopped = true) (halt : s.idex.opcode = .halt) (bound : s.cycles + 3 < 2 ^ 64) :
    (cyclesWith dec 2 s).halted = false ∧ (cyclesWith dec 2 s).fault = none ∧ (cyclesWith dec 3 s).halted = true ∧
      (cyclesWith dec 3 s).fault = none ∧
      s.arch = ⟨(cyclesWith dec 3 s).pc, (cyclesWith dec 3 s).regs.committed, (cyclesWith dec 3 s).dmem⟩ := by
  obtain ⟨sound₁, stopped₁, arch₁, cycles₁, edge₁⟩ := sound.cycle_of_stopped_fetch contract stopped (by omega)
  obtain ⟨sound₂, stopped₂, arch₂, cycles₂, edge₂⟩ := sound₁.cycle_of_stopped_fetch contract stopped₁ (by omega)
  obtain ⟨sound₃, -, arch₃, -, edge₃⟩ := sound₂.cycle_of_stopped_fetch contract stopped₂ (by omega)
  have inMem : (cycleWith dec s).exmem.opcode = .halt := by
    rw [edge₁ (halted_eq_false_of_in_flight sound.inv (.inl fun empty => by simp [empty] at halt))]
    exact halt
  have inWb : (cycleWith dec (cycleWith dec s)).memwb.opcode = .halt := by
    rw [edge₂ (halted_eq_false_of_in_flight sound₁.inv (.inr (.inl fun empty => by simp [empty] at inMem)))]
    exact inMem
  have running : (cycleWith dec (cycleWith dec s)).halted = false :=
    halted_eq_false_of_in_flight sound₂.inv (.inr (.inr fun empty => by simp [empty] at inWb))
  have halted : (cycleWith dec (cycleWith dec (cycleWith dec s))).halted = true := by
    rw [edge₃ running, State.commit_halted, haltedNext, inWb]
    exact Bool.or_true _
  exact ⟨running, sound₂.noFault, halted, sound₃.noFault,
    by rw [← arch₁, ← arch₂, ← arch₃]; exact arch_of_halted sound₃.inv halted⟩

/-! ### The run to an error -/

/-- Where the reference machine stops with an error, the pipeline gets to the failing instruction in a state that issues
it, at no more than three cycles an instruction. -/
theorem cycles_of_seqError (contract : DecodeContract dec) {final : ArchState}
    (run : seqError dec imem fuel a = some (e, final)) (sound : s.Sound imem) (going : s.fetchStopped = false)
    (arch : s.arch = a) (bound : s.cycles + 3 * fuel < 2 ^ 64) :
    ∃ k, (cyclesWith dec k s).Sound imem ∧
      (cyclesWith dec k s).issues (dec (cyclesWith dec k s).ifid.instruction) = true ∧
      (cyclesWith dec k s).arch = final ∧ (cyclesWith dec k s).cycles = s.cycles + k ∧
      seqStep dec imem final = .error e := by
  induction fuel generalizing s a with
  | zero => cases run
  | succ fuel ih =>
    generalize hk : s.waits (dec s.ifid.instruction) = k
    have short : k ≤ 2 := hk ▸ waits_le_two ..
    obtain ⟨sound₁, issues, arch₁, cycles₁⟩ := sound.cycles_to_issue contract going hk (by omega)
    rw [arch] at arch₁
    rcases seqError_succ_cases run with ⟨stop, rfl⟩ | ⟨a', step, rest⟩
    · exact ⟨k, sound₁, issues, arch₁, cycles₁, stop⟩
    · obtain ⟨d, hd, effect⟩ := seqDecode_of_seqStep step nofun
      obtain ⟨sound₂, going₂, arch₂, cycles₂⟩ :=
        sound₁.cycle_of_next issues contract (arch₁ ▸ hd) (arch₁ ▸ effect) (by omega)
      obtain ⟨j, sound₃, issues₃, arch₃, cycles₃, stop⟩ := ih rest sound₂ going₂ arch₂ (by omega)
      have split : cyclesWith dec (k + (j + 1)) s = cyclesWith dec j (cycleWith dec (cyclesWith dec k s)) := by
        rw [cyclesWith_add, cyclesWith_succ]
      rw [← split] at sound₃ issues₃ arch₃ cycles₃
      exact ⟨k + (j + 1), sound₃, issues₃, arch₃, by omega, stop⟩

/-! ### Where the errors come from -/

/-- While the reference machine meets no error, or once the fetch has stopped, a cycle stays clear of one. -/
theorem State.Sound.cycle_of_no_seqError (contract : DecodeContract dec) (sound : s.Sound imem)
    (clear : s.fetchStopped = true ∨ ∀ fuel, seqError dec imem fuel s.arch = none) (bound : s.cycles + 1 < 2 ^ 64) :
    (cycleWith dec s).Sound imem ∧ (cycleWith dec s).cycles ≤ s.cycles + 1 ∧
      ((cycleWith dec s).fetchStopped = true ∨ ∀ fuel, seqError dec imem fuel (cycleWith dec s).arch = none) := by
  cases stopped : s.fetchStopped with
  | true =>
    obtain ⟨sound', stopped', -, cycles, -⟩ := sound.cycle_of_stopped_fetch contract stopped bound
    exact ⟨sound', cycles, .inl stopped'⟩
  | false =>
    have clear := clear.resolve_left (by simp [stopped])
    cases issues : s.issues (dec s.ifid.instruction) with
    | false =>
      obtain ⟨edge, sound'⟩ := sound.cycle_of_not_issues contract (halted_eq_false_of_going sound.inv stopped) issues
      refine ⟨sound', by rw [edge]; exact Nat.le_refl _, .inr ?_⟩
      rwa [edge, commit_arch_of_not_issues sound.inv (contract.keepsContract s) issues (sound.number_ne_zero bound)]
    | true =>
      cases step : seqStep dec imem s.arch with
      | error e => simpa [seqError, step] using clear 1
      | next a =>
        obtain ⟨d, hd, effect⟩ := seqDecode_of_seqStep step nofun
        obtain ⟨sound', -, arch, cycles⟩ := sound.cycle_of_next issues contract hd effect bound
        refine ⟨sound', cycles.le, .inr fun fuel => ?_⟩
        simpa [seqError, step, arch] using clear (fuel + 1)
      | stopped =>
        obtain ⟨d, hd, effect⟩ := seqDecode_of_seqStep step nofun
        obtain ⟨sound', stopped', -, -, cycles⟩ := sound.cycle_of_stopped issues contract hd effect
        exact ⟨sound', cycles.le, .inl stopped'⟩

theorem cyclesWith_of_no_seqError (contract : DecodeContract dec) (sound : s.Sound imem)
    (clear : s.fetchStopped = true ∨ ∀ fuel, seqError dec imem fuel s.arch = none) (bound : s.cycles + n < 2 ^ 64) :
    (cyclesWith dec n s).Sound imem := by
  induction n generalizing s with
  | zero => exact sound
  | succ n ih =>
    obtain ⟨sound', cycles, clear'⟩ := sound.cycle_of_no_seqError contract clear (by omega)
    exact ih sound' clear' (by omega)

/-! ### The cycles after a misaligned access is issued -/

/-- A misaligned access in Execute is raised in the cycle after a clock edge: whatever that edge fetched or decoded is
younger (R205, R276). -/
theorem cycleWith_commit_of_misaligned (inv : s.PipelineInv) (noFault : s.fault = none) (v : Option RawFields)
    (access : s.idex.opcode = .lw ∨ s.idex.opcode = .sw) (misaligned : isWordAddress s.seqResult = false) :
    cycleWith dec (s.commit v) =
      { s.commit v with fault := some ⟨.misalignedAccess s.seqResult, s.idex.instNo, s.cycles + 2⟩ } := by
  have full : s.idex ≠ IdEx.bubble := fun empty => by simp [empty] at access
  have notHalted := halted_eq_false_of_in_flight inv (.inl full)
  have raised := memError_commit_of_misaligned inv v access misaligned
  obtain ⟨-, -, -, -, -, ⟨-, -, inWb, -⟩, -⟩ := inv
  have notHalting : s.memwb.opcode ≠ .halt := fun halt => full (inWb halt).1
  have running : (s.commit v).frozen = false :=
    frozen_eq_false_iff.mpr ⟨by simp [haltedNext, notHalted, notHalting], noFault⟩
  exact cycleWith_of_memError dec running raised

/-- The cycle that issues an instruction whose effect is an error fetches the next word: HALT has no such effect. -/
theorem State.Sound.cycle_of_effect_error (sound : s.Sound imem) (issues : s.issues (dec s.ifid.instruction) = true)
    (hd : seqDecode dec imem s.arch = .ok d) (effect : seqEffect d s.arch = .error e) :
    cycleWith dec s = s.commit (dec s.ifid.instruction) ∧ (cycleWith dec s).idex = issued d s ∧
      (cycleWith dec s).ifid = ⟨s.nextInstNo, imem.readWord (s.arch.pc + 4), s.arch.pc + 4⟩ ∧
      (cycleWith dec s).seqResult = d.result s.arch := by
  obtain ⟨-, -, pc, -, same⟩ := sound.issuing issues
  obtain ⟨full, -, -⟩ := issues_eq_true_iff.mp issues
  obtain ⟨edge, -, idex⟩ := sound.cycle_of_seqDecode_ok issues hd
  have noHalt : d.opcode ≠ .halt := fun halt => by simp [seqEffect, halt] at effect
  have row := fetchRow_of_issues sound.inv issues (same.trans hd) noHalt
  obtain ⟨-, -, -, -, -, -, -, follows⟩ := sound.inv
  have follows := follows.resolve_left full
  refine ⟨edge, idex, ?_, ?_⟩ <;> rw [edge]
  · simp only [State.commit_ifid, ifidNext, row, follows, pc, sound.sameImem]
  · exact commit_seqResult_of_issues sound.inv issues (same.trans hd)

/-- With a misaligned access in Execute, the word in Decode raises its own error if the decoder does not know it, and
otherwise lets the access be raised from Memory in the next cycle (R276, R278). -/
theorem cycleWith_of_misaligned (contract : DecodeContract dec) (inv : s.PipelineInv) (noFault : s.fault = none)
    (noMemError : memError s = none) (access : s.idex.opcode = .lw ∨ s.idex.opcode = .sw) {addr word : Word}
    {number : InstNo} (result : s.seqResult = addr) (misaligned : isWordAddress addr = false)
    (idexNo : s.idex.instNo = number) (hword : s.ifid.instruction = word) (cycles : s.cycles = n + 1) :
    if (dec word).isSome = true then
      (cycleWith dec s).fault = none ∧ (cycleWith dec s).exmem.instNo = number ∧
        cycleWith dec (cycleWith dec s) =
          { cycleWith dec s with fault := some ⟨.misalignedAccess addr, number, n + 3⟩ }
    else cycleWith dec s = { s with fault := some ⟨.unknownOpcode word, s.ifid.instNo, n + 2⟩ } := by
  subst result idexNo hword
  have noBranch : s.idex.opcode.isBranch = false := by rcases access with o | o <;> simp [o, Opcode.isBranch]
  have noFlush := flushSignal_of_not_branch noBranch
  have full : s.idex ≠ IdEx.bubble := fun empty => by simp [empty] at access
  have running := frozen_eq_false_iff.mpr ⟨halted_eq_false_of_in_flight inv (.inl full), noFault⟩
  rcases contract.checkFields_cases s.ifid.instruction with ⟨d, known, hd⟩ | ⟨unknown, he⟩
  · obtain ⟨edge, -⟩ := clockCycle_of_decodeError_none inv running noMemError
      ((decodeError_eq_none_iff noFlush).mpr ⟨d, hd⟩)
    have edge : cycleWith dec s = s.commit (dec s.ifid.instruction) := edge
    rw [if_pos known, edge]
    refine ⟨noFault, rfl, ?_⟩
    rw [cycleWith_commit_of_misaligned inv noFault _ access misaligned, cycles]
  · rw [if_neg (by simp [unknown]), ← Nat.add_right_cancel_iff (n := 1) |>.mpr cycles]
    exact clockCycle_of_decodeResult_error running noFlush noMemError he

end

/-! ### The statements -/

/-- Settles O58: one cycle fetches the first word, `cycles_of_seqRun` takes the HALT to Execute, and three cycles drain
the pipeline. -/
theorem pipelinedRunEqualsSequentialRun : Obligations.PipelinedRunEqualsSequentialRun := by
  intro dec p fuel r contract wf run bound
  dsimp only
  have empty : (State.resetWith p).waits (dec 0) = 1 := by
    simp [State.waits, flushSignal, branchTaken]
  obtain ⟨sound, stopped, halt, arch, cycles⟩ := cycles_of_seqRun contract run (resetWith_sound wf) rfl rfl
    (c := 1) (fun d _ => empty) rfl (by simp only [State.resetWith_cycles]; omega)
  have drain := sound.cycles_of_halt contract stopped halt (by rw [cycles, State.resetWith_cycles]; omega)
  rw [arch, ← cyclesWith_add, ← cyclesWith_add] at drain
  have count₂ : 1 + r.executed + r.stalls + 2 * r.taken + 2 = r.executed + 3 + r.stalls + 2 * r.taken := by omega
  have count₃ : 1 + r.executed + r.stalls + 2 * r.taken + 3 = r.executed + 4 + r.stalls + 2 * r.taken := by omega
  rw [count₂, count₃] at drain
  obtain ⟨running, noFault, halted, noFault', final⟩ := drain
  obtain ⟨pc, regs, dmem⟩ := ArchState.mk.injEq .. |>.mp final
  exact ⟨running, noFault, halted, noFault', regs.symm, dmem.symm, pc.symm⟩

/-- Settles O59: `cycles_of_seqError` takes the failing word to Decode; an unknown one is raised there, and a misaligned
access one cycle after the next word has been in Decode, unless that word is unknown. -/
theorem sequentialErrorStopsPipeline : Obligations.SequentialErrorStopsPipeline := by
  intro dec p fuel e a contract wf bound run
  dsimp only
  obtain ⟨k, sound, issues, arch, cycles, stop⟩ := cycles_of_seqError contract run (resetWith_sound wf) rfl rfl
    (by simp only [State.resetWith_cycles]; omega)
  rw [State.resetWith_cycles, Nat.zero_add] at cycles
  refine ⟨k, ?_⟩
  generalize cyclesWith dec k (State.resetWith p) = s at *
  obtain ⟨running, -, pc, word, same⟩ := sound.issuing issues
  subst arch cycles
  refine ⟨running, rfl, pc, word, ?_⟩
  rcases contract.checkFields_cases ((State.resetWith p).imem.readWord s.arch.pc) with ⟨d, -, hd⟩ | ⟨-, unknown⟩
  · have hd : seqDecode dec (State.resetWith p).imem s.arch = .ok d := hd
    have effect := (seqStep_of_ok hd).symm.trans stop
    obtain ⟨access, rfl, misaligned⟩ := seqEffect_eq_error_iff.mp effect
    obtain ⟨edge, idex, ifid, result⟩ := sound.cycle_of_effect_error issues hd effect
    obtain ⟨-, noError, -⟩ := sound.cycle_of_seqDecode_ok issues hd
    have inv' := cycleWith_keeps_pipelineInv contract sound.inv
    have noFault' : (cycleWith dec s).fault = none := by rw [edge]; exact sound.noFault
    have noMemError' : memError (cycleWith dec s) = none := by
      rw [edge]
      exact memError_commit_eq_none sound.inv _ sound.executeGood
    exact ⟨noFault', by rw [idex]; rfl, by rw [idex]; exact pc, ifid,
      cycleWith_of_misaligned contract inv' noFault' noMemError' (by rw [idex]; exact access) result misaligned
        (by rw [idex]; rfl) (by rw [ifid]) (by rw [edge]; rfl)⟩
  · have unknown : seqDecode dec (State.resetWith p).imem s.arch = .error _ := unknown
    cases (seqStep_of_error unknown).symm.trans stop
    exact ⟨rfl, sound.cycle_of_seqDecode_error issues unknown⟩

/-- Settles O60: without an error of the reference machine every state of the run is sound, so it has no fault. -/
theorem pipelineErrorsAreSequential : Obligations.PipelineErrorsAreSequential := by
  intro dec p n contract wf bound fault
  by_contra noError
  have clear (fuel : Nat) : seqError dec (State.resetWith p).imem fuel (State.resetWith p).arch = none := by
    rw [Option.eq_none_iff_forall_ne_some]
    exact fun ⟨e, a⟩ h => noError ⟨fuel, e, a, h⟩
  exact fault (cyclesWith_of_no_seqError contract (resetWith_sound wf) (.inr clear) (by simpa using bound)).noFault

end Sys2Proof.Machine
end

section
/-! SUPPORT. The step as one cycle: the instruction in Decode, `REFDEC`'s answer for it and the effect of its record (R100,
R215, R217), the signals of R182, and what no step changes. -/

namespace Sys2Proof.Machine

section
variable {s t : State} {v : Option RawFields} {i : Instr}

/-! ### The step -/

theorem step_of_decodeWord (h : decodeWord s.ifid.instruction = .ok i) : step s = exec i s := by rw [step, h]

/-- Settles O6: the two branches of `step`. -/
theorem stepRunsInstructionInDecode : Obligations.StepRunsInstructionInDecode := by
  refine fun s => ⟨fun i h => step_of_decodeWord h, fun e h => ?_⟩
  rw [step, h]

/-- Settles O7: in row 4 of R186 IF/ID receives the word at the PC, which is the one the next step decodes. -/
theorem fetchedWordRunsInNextStep : Obligations.FetchedWordRunsInNextStep := by
  intro s t i h running noFault noFlush noStall going noHalt hi
  obtain ⟨rfl, -⟩ := step_commits h running noFault
  have row := fetchRow_eq_normal noFlush noStall (by simp [going, noHalt])
  refine step_of_decodeWord ?_
  simpa only [State.commit_ifid, ifidNext, row] using hi

theorem run_eq_cyclesWith_refdec (n : Nat) (s : State) : core.run n s = .next (cyclesWith refdec n s) := by
  induction n generalizing s with
  | zero => rfl
  | succ n ih => rw [run_succ_of_step n (step_eq_cycleWith_refdec s), ih, cyclesWith_succ]

/-- The checked record of a well-formed instruction has the instruction's own sequential effect (R131 to R171). -/
theorem exists_record_of_wellFormed (wf : i.wellFormed = true) (w : Word) :
    ∃ d, checkFields w (some (fieldsOf i)) = .ok d ∧ ∀ a, seqEffect d a = seqExec i a := by
  have regs := Instr.wellFormed_iff.mp wf
  cases i with
  | nop | halt => exact ⟨_, checkFields_ok w _ _ _ (Nat.zero_le 31) (Nat.zero_le 31) (Nat.zero_le 31), fun _ => rfl⟩
  | add rd rs rt | sub rd rs rt | and rd rs rt | or rd rs rt | xor rd rs rt | slt rd rs rt =>
    obtain ⟨hs, ht, hd⟩ : rs ≤ 31 ∧ rt ≤ 31 ∧ rd ≤ 31 := by simpa [Instr.registers] using regs
    exact ⟨_, checkFields_ok w .alur _ _ hs ht hd, fun _ => rfl⟩
  | addi rt rs imm | lw rt imm rs =>
    obtain ⟨hs, ht⟩ : rs ≤ 31 ∧ rt ≤ 31 := by simpa [Instr.registers] using regs
    exact ⟨_, checkFields_ok w _ .add _ hs (Nat.zero_le 31) ht, fun _ => rfl⟩
  | sw rt imm rs | beq rs rt off | bne rs rt off =>
    obtain ⟨hs, ht⟩ : rs ≤ 31 ∧ rt ≤ 31 := by simpa [Instr.registers] using regs
    exact ⟨_, checkFields_ok w _ _ _ hs ht (Nat.zero_le 31), fun _ => rfl⟩

/-- Settles O8: the table and `REFDEC` answer the same record (`refdec_eq_fieldsOf`), and a decoded instruction is
well-formed. -/
theorem stepIsCycleWithReferenceDecoder : Obligations.StepIsCycleWithReferenceDecoder := by
  refine ⟨step_eq_cycleWith_refdec, run_eq_cyclesWith_refdec, fun w => ?_⟩
  rw [refdec_eq_fieldsOf]
  cases hw : decodeWord w with
  | ok i => exact exists_record_of_wellFormed (encodeOfDecodeReturnsWord w i hw).1 w
  | error e => rfl

/-! ### The signals of R182 -/

/-- Settles O24: a flush silences Decode, and HALT needs no register. -/
theorem fetchSignalsExclude : Obligations.FetchSignalsExclude := by
  refine fun v s => ⟨fun ⟨flush, stall⟩ => ?_, fun ⟨flush, halt⟩ => ?_, fun ⟨stall, halt⟩ => ?_⟩
  · rw [(stallSignal_eq_true_iff.mp stall).1] at flush
    cases flush
  · rw [(haltDec_eq_true_iff.mp halt).1] at flush
    cases flush
  · rw [stallSignal_of_haltDec halt] at stall
    cases stall

/-! ### The memories -/

theorem clockCycle_imem (v : Option RawFields) (s : State) : (clockCycle v s).imem = s.imem := by
  rcases clockCycle_cases v s with ⟨-, h⟩ | ⟨e, -, -, h⟩ | ⟨-, -, h⟩ <;> rw [h] <;> rfl

/-- Settles O12: none of the three things a cycle can be writes instruction memory. -/
theorem instructionMemoryNeverChanges : Obligations.InstructionMemoryNeverChanges := by
  intro s t h
  cases (step_eq_cycleWith_refdec s).symm.trans h
  exact clockCycle_imem _ s

theorem dmemAfterMem_wf (wf : s.dmem.wf) : s.dmemAfterMem.wf := by
  unfold State.dmemAfterMem
  split
  · exact Memory.writeWord_wf wf _ _
  · exact wf

theorem dmemAfterEx_wf (wf : s.dmem.wf) : s.dmemAfterEx.wf := by
  unfold State.dmemAfterEx
  split
  · exact Memory.writeWord_wf (dmemAfterMem_wf wf) _ _
  · exact dmemAfterMem_wf wf

/-- Settles O54: a clock edge writes data memory by a store's word only, and instruction memory never. -/
theorem stepKeepsMemoriesCanonical : Obligations.StepKeepsMemoriesCanonical := by
  intro s t ⟨imem, dmem⟩ h
  cases (step_eq_cycleWith_refdec s).symm.trans h
  rcases clockCycle_cases (refdec s.ifid.instruction) s with ⟨-, h⟩ | ⟨e, -, -, h⟩ | ⟨-, -, h⟩ <;> rw [cycleWith, h]
  · exact ⟨imem, dmem⟩
  · exact ⟨imem, dmem⟩
  · refine ⟨imem, ?_⟩
    rw [State.commit_dmem, dmemNext_eq]
    exact dmemAfterMem_wf dmem

/-- Settles O11: the store has written its word when the load reads, at its own address and no other. -/
theorem storeIsSeenByLaterLoads : Obligations.StoreIsSeenByLaterLoads := by
  intro s t wf h running noFault store load
  obtain ⟨rfl, noError⟩ := step_commits h running noFault
  obtain ⟨noMemError, -, -⟩ := cycleError_eq_none.mp noError
  have aligned := isWordAddress_of_memError_eq_none noMemError (.inr store)
  have loaded : (memwbNext (s.commit (refdec s.ifid.instruction))).result =
      (s.dmem.writeWord s.exmem.result s.exmem.storeValue).readWord
        (s.commit (refdec s.ifid.instruction)).exmem.result := by
    rw [memwbNext, memResult_eq, if_pos load, State.commit_dmem, dmemNext_eq, State.dmemAfterMem, if_pos store]
  refine ⟨fun same => ?_, fun other aligned' => ?_⟩
  · rw [loaded, same, Memory.readWord_writeWord_self wf]
  · rw [loaded, Memory.readWord_writeWord_of_ne wf aligned aligned' (Ne.symm other)]

/-! ### Reset -/

theorem bankGet_ofInit_replicate (r : RegIdx) : bankGet (RegFile.ofInit (Vector.replicate 32 0)).committed r = 0 := by
  rw [bankGet_ofInit, bankGet_replicate, ite_self]

/-- Settles O48: every field by definition; `INIT_REGS` all 0 with entry 0 set to 0 is all 0. -/
theorem resetValues : Obligations.ResetValues := by
  have zeros : RegFile.ofInit (Vector.replicate 32 0) = ⟨Vector.replicate 32 0, Vector.replicate 32 0⟩ := by
    have bank : (RegFile.ofInit (Vector.replicate 32 0)).committed = Vector.replicate 32 0 :=
      bank_ext fun r => (bankGet_ofInit_replicate r).trans (bankGet_replicate 0 r).symm
    exact RegFile.mk.injEq .. |>.mpr ⟨bank, bank⟩
  refine ⟨rfl, fun r => ⟨bankGet_replicate 0 r, bankGet_replicate 0 r⟩, rfl, rfl, rfl, rfl, rfl, rfl, rfl, rfl,
    fun a => ⟨Memory.readWord_nil a, Memory.readWord_nil a⟩, ?_⟩
  rw [State.resetWith, Params.default, zeros]
  rfl

end

end Sys2Proof.Machine
end

section
/-! SUPPORT. Hazards over more than one cycle: the cycle after a stall (R252), forwarding as sequential reading (R261), and
the machine once the fetch has stopped (R174). -/

namespace Sys2Proof.Machine

section
variable {s t : State} {v : Option RawFields}

/-- Settles O25: `operandA_eq_seqA` and `operandB_eq_seqB`. -/
theorem forwardedOperandsAreSequential : Obligations.ForwardedOperandsAreSequential :=
  fun _ inv => ⟨operandA_eq_seqA inv, operandB_eq_seqB inv⟩

/-! ### The stall -/

/-- Where a load moves from Memory to Writeback with a bubble behind it, its word is what every use of its register in
Execute gets (R240, R252). -/
theorem forward_commit_of_load (load : s.exmem.opcode = .lw) (dest : s.exmem.destReg ≠ 0) (empty : s.idex = IdEx.bubble)
    (v : Option RawFields) (x : Word) :
    forward (s.commit v) s.exmem.destReg x true = s.dmem.readWord s.exmem.result := by
  have exmem : (s.commit v).exmem = ExMem.bubble := exmemNext_bubble empty
  have writes : (s.commit v).memwb.opcode.writesReg = true := by
    change s.exmem.opcode.writesReg = true
    rw [load]
    rfl
  calc forward (s.commit v) s.exmem.destReg x true
    _ = memResult s :=
      forward_of_memwb (fun ⟨producer, _⟩ => by rw [exmem] at producer; cases producer) ⟨writes, rfl, dest⟩
    _ = s.dmem.readWord s.exmem.result := (memResult_eq s).trans (if_pos load)

/-- Settles O21: the stall leaves a bubble in Execute, so the load is alone in Memory and no second stall follows. -/
theorem stallLastsOneCycle : Obligations.StallLastsOneCycle := by
  intro s t inv h running noFault stall
  obtain ⟨rfl, -⟩ := step_commits h running noFault
  obtain ⟨-, d, -, use⟩ := stallSignal_eq_true_iff.mp stall
  obtain ⟨load, dest, -⟩ := loadUse_eq_true_iff.mp use
  have inv' := step_keeps_pipelineInv inv h
  have empty : (s.commit (refdec s.ifid.instruction)).idex = IdEx.bubble := idexNext_of_stall stall
  have load' : (s.commit (refdec s.ifid.instruction)).exmem.opcode = .lw := load
  have dest' : (s.commit (refdec s.ifid.instruction)).exmem.destReg ≠ 0 := dest
  generalize s.commit (refdec s.ifid.instruction) = t at *
  have running' : t.frozen = false := frozen_eq_false_iff.mpr
    ⟨halted_eq_false_of_in_flight inv' (.inr (.inl fun h => by simp [h] at load')), noFault⟩
  refine ⟨stallSignal_of_not_load (by simp [empty]), load', fun u h noFault => ?_⟩
  obtain ⟨rfl, -⟩ := step_commits h running' noFault
  have loaded := forward_commit_of_load load' dest' empty (refdec t.ifid.instruction)
  refine ⟨fun uses same => ?_, fun uses same => ?_⟩
  · rw [operandA, uses, same, loaded]
  · rw [operandB, uses, same, loaded]

/-! ### The fetch stop -/

/-- Once the fetch has stopped the Fetch unit latches nothing (row 3 of R186): Decode holds a bubble, which is not held. -/
theorem fetchRow_of_fetchStopped (inv : s.PipelineInv) (keeps : KeepsContract v s) (stopped : s.fetchStopped = true) :
    fetchRow v s = .stop := by
  obtain ⟨-, -, -, -, quiet, -⟩ := inv
  obtain ⟨empty, noBranch⟩ := quiet stopped
  exact fetchRow_eq_stop (flushSignal_of_not_branch noBranch) (signals_of_empty keeps empty).2.1 (by simp [stopped])

/-- In that row the clock edge does not look at instruction memory. -/
theorem commit_imem_of_stop (row : fetchRow v s = .stop) (m : Memory) :
    { s with imem := m }.commit v = { s.commit v with imem := m } := by
  have row' : fetchRow v { s with imem := m } = .stop := row
  have ifid : ifidNext v { s with imem := m } = ifidNext v s := by simp only [ifidNext, row, row']
  exact State.mk.injEq .. |>.mpr ⟨rfl, rfl, rfl, rfl, ifid, rfl, rfl, rfl, rfl, rfl, rfl, rfl, rfl⟩

theorem clockCycle_imem_of_stop (row : fetchRow v s = .stop) (m : Memory) :
    clockCycle v { s with imem := m } = { clockCycle v s with imem := m } := by
  rcases clockCycle_cases v s with ⟨frozen, h⟩ | ⟨e, running, he, h⟩ | ⟨running, noError, h⟩ <;> rw [h]
  · exact clockCycle_frozen frozen
  · exact clockCycle_error running he
  · rw [← commit_imem_of_stop row]
    have running' : State.frozen { s with imem := m } = false := running
    have noError' : cycleError v { s with imem := m } = none := noError
    exact clockCycle_commit (by simp [State.commits, running', noError'])

/-- Settles O26: only the fetched word depends on instruction memory, and the Fetch unit is in its third row. -/
theorem nothingIsFetchedAfterHalt : Obligations.NothingIsFetchedAfterHalt := by
  intro s t m inv stopped h
  have row := fetchRow_of_fetchStopped inv (refdec_contract.keepsContract s) stopped
  cases (step_eq_cycleWith_refdec s).symm.trans h
  refine ⟨?_, ?_⟩
  · rw [step_eq_cycleWith_refdec]
    exact congrArg Host.Outcome.next (clockCycle_imem_of_stop row m)
  · have empty : s.ifid = IfId.bubble := by
      obtain ⟨-, -, -, -, quiet, -⟩ := inv
      exact (quiet stopped).1
    rcases clockCycle_cases (refdec s.ifid.instruction) s with ⟨-, h⟩ | ⟨e, -, -, h⟩ | ⟨-, -, h⟩ <;> rw [cycleWith, h]
    · exact ⟨rfl, rfl, empty⟩
    · exact ⟨rfl, rfl, empty⟩
    · simp [pcNext, instNoNext, ifidNext, row]

end

end Sys2Proof.Machine
end

section
/-! SUPPORT. The load and store instructions of 41_load_store.md: the cycle that issues one takes its sequential effect
when the address is a word address, and a misaligned one is raised from Memory two cycles on (R150 to R152, R272). -/

namespace Sys2Proof.Machine

section
variable {s : State} {rt rs : Nat} {imm : BitVec 16}

/-- The checked record of LW (R97, R100). -/
theorem decodeResult_lw (s : State) (ht : rt ≤ 31) (hs : rs ≤ 31) (imm : BitVec 16) :
    decodeResult (some (fieldsLoadImm .lw rt rs imm)) s =
      .ok ⟨.lw, .add, BitVec.ofNat 5 rs, 0, BitVec.ofNat 5 rt, sext32 imm⟩ :=
  checkFields_ok _ .lw .add _ hs (Nat.zero_le 31) ht

/-- The checked record of SW (R97, R100). -/
theorem decodeResult_sw (s : State) (ht : rt ≤ 31) (hs : rs ≤ 31) (imm : BitVec 16) :
    decodeResult (some (fieldsStore rt rs imm)) s =
      .ok ⟨.sw, .add, BitVec.ofNat 5 rs, BitVec.ofNat 5 rt, 0, sext32 imm⟩ :=
  checkFields_ok _ .sw .add _ hs ht (Nat.zero_le 31)

/-- LW needs `rs` only. -/
theorem needs_lw (src2 r : RegIdx) (h : Opcode.lw.needs (BitVec.ofNat 5 rs) src2 r = true) :
    ∃ n ∈ [rs], BitVec.ofNat 5 n = r := by
  simpa [Opcode.needs_eq_true_iff, Opcode.uses1, Opcode.uses2] using h

/-- SW needs `rs` and `rt`. -/
theorem needs_sw (r : RegIdx) (h : Opcode.sw.needs (BitVec.ofNat 5 rs) (BitVec.ofNat 5 rt) r = true) :
    ∃ n ∈ [rs, rt], BitVec.ofNat 5 n = r := by
  simpa [Opcode.needs_eq_true_iff, Opcode.uses1, Opcode.uses2] using h

/-- Settles O41: the record's sequential effect at a word address is the load. -/
theorem loadWordCompletes : Obligations.LoadWordCompletes := by
  intro s rt rs imm ht hs inv acc aligned
  refine ⟨decodeWord_encode (i := .lw rt imm rs) (Instr.wellFormed_iff.mpr (by simp [Instr.registers, hs, ht])), _, rfl,
    ?_⟩
  exact issued_of_accepts inv acc (decodeResult_lw s ht hs imm) (needs_lw 0) nofun
    (if_pos (isWordAddress_iff.mpr aligned))

/-- Settles O42: the record's sequential effect at a word address is the store, and a word written reads back. -/
theorem storeWordCompletes : Obligations.StoreWordCompletes := by
  intro s rt rs imm ht hs inv wf acc aligned
  have address := isWordAddress_iff.mpr aligned
  have issue := issued_of_accepts inv acc (decodeResult_sw s ht hs imm) needs_sw (fun _ => rfl) (if_pos address)
  refine ⟨decodeWord_encode (i := .sw rt imm rs) (Instr.wellFormed_iff.mpr (by simp [Instr.registers, hs, ht])), _, rfl,
    issue, ?_⟩
  obtain ⟨-, -, arch, -⟩ := issue
  have archWf : s.arch.dmem.wf := dmemAfterEx_wf wf
  rw [arch]
  exact ⟨Memory.readWord_writeWord_self archWf _ _, fun k => Memory.readByte_writeWord_outside archWf address _⟩

/-! ### A misaligned address -/

/-- The cycle of an accepted record is a clock edge that puts the record into Execute. -/
theorem clockCycle_of_accepts {sources : List Nat} {v : Option RawFields} {d : Decoded} (inv : s.PipelineInv)
    (acc : s.accepts sources = true) (hd : decodeResult v s = .ok d)
    (needs : ∀ r, d.opcode.needs d.src1Reg d.src2Reg r = true → ∃ n ∈ sources, BitVec.ofNat 5 n = r) :
    s.fault = none ∧ clockCycle v s = s.commit v ∧ (clockCycle v s).idex = issued d s ∧
      (clockCycle v s).seqResult = d.result s.arch := by
  have issues := issues_of_accepts acc hd needs
  obtain ⟨-, noFlush, noStall⟩ := issues_eq_true_iff.mp issues
  simp only [State.accepts, Bool.and_eq_true, Bool.not_eq_true', State.addressesGood, Option.isNone_iff_eq_none] at acc
  obtain ⟨⟨⟨⟨⟨running, -⟩, -⟩, -⟩, noMemError, -⟩, -⟩ := acc
  obtain ⟨edge, -⟩ := clockCycle_of_decodeError_none inv running noMemError
    ((decodeError_eq_none_iff noFlush).mpr ⟨d, hd⟩)
  refine ⟨(frozen_eq_false_iff.mp running).2, edge, ?_, ?_⟩ <;> rw [edge]
  · exact idexNext_issued noFlush noStall hd
  · exact commit_seqResult_of_issues inv issues hd

/-- An accepted load or store of a misaligned address is raised in its Memory cycle, two cycles on (R205, R272). -/
theorem misaligned_raised_of_accepts {sources : List Nat} {v : Option RawFields} {d : Decoded} (inv : s.PipelineInv)
    (acc : s.accepts sources = true) (hd : decodeResult v s = .ok d)
    (needs : ∀ r, d.opcode.needs d.src1Reg d.src2Reg r = true → ∃ n ∈ sources, BitVec.ofNat 5 n = r)
    (noDest : d.opcode.writesReg = false → d.destReg = 0) (access : d.opcode = .lw ∨ d.opcode = .sw)
    (misaligned : (d.result s.arch).toNat % 4 ≠ 0) :
    (clockCycle v s).fault = none ∧ ∀ u, step (clockCycle v s) = .next u → u.fault = none →
      step u = .next { u with fault := some ⟨.misalignedAccess (d.result s.arch), s.ifid.instNo, u.cycles + 1⟩ } := by
  obtain ⟨noFault, edge, idex, result⟩ := clockCycle_of_accepts inv acc hd needs
  have inv' := clockCycle_keeps_pipelineInv inv (keepsContract_of_accepts acc hd noDest)
  have noFault' : (clockCycle v s).fault = none := by rw [edge]; exact noFault
  refine ⟨noFault', fun u h noFaultU => ?_⟩
  have instNo : s.ifid.instNo = (clockCycle v s).idex.instNo := by rw [idex]; rfl
  rw [← result] at misaligned ⊢
  rw [instNo]
  have access' : (clockCycle v s).idex.opcode = .lw ∨ (clockCycle v s).idex.opcode = .sw := by rw [idex]; exact access
  generalize clockCycle v s = t at *
  have full : t.idex ≠ IdEx.bubble := fun empty => by simp [empty] at access'
  have running' := frozen_eq_false_iff.mpr ⟨halted_eq_false_of_in_flight inv' (.inl full), noFault'⟩
  obtain ⟨rfl, -⟩ := step_commits h running' noFaultU
  rw [step_eq_cycleWith_refdec, cycleWith_commit_of_misaligned inv' noFault' _ access'
    (isWordAddress_eq_false_iff.mpr misaligned)]
  rfl

/-- Settles O43: `misaligned_raised_of_accepts` for the records of LW and SW. -/
theorem misalignedLoadStoreRaisesInMemory : Obligations.MisalignedLoadStoreRaisesInMemory := by
  intro s i rt rs imm ht hs inv accepted misaligned
  rcases accepted with ⟨rfl, acc⟩ | ⟨rfl, acc⟩
  · exact ⟨_, rfl, misaligned_raised_of_accepts inv acc (decodeResult_lw s ht hs imm) (needs_lw 0) nofun (.inl rfl)
      misaligned⟩
  · exact ⟨_, rfl, misaligned_raised_of_accepts inv acc (decodeResult_sw s ht hs imm) needs_sw (fun _ => rfl) (.inr rfl)
      misaligned⟩

end

end Sys2Proof.Machine
end

section
/-! SUPPORT. Register indices out of range (R115, R271), and the frame of the cycle of any instruction. -/

namespace Sys2Proof.Machine

section
variable {s t : State} {f : RawFields} {i : Instr}

/-! ### Bad register indices -/

/-- The index that the check reports is above 31. -/
theorem lt_of_badIndex {r : Nat} (h : f.badIndex = some r) : 31 < r := by
  simpa using List.find?_some h

theorem exists_badIndex (h : 31 < f.src1Reg ∨ 31 < f.src2Reg ∨ 31 < f.destReg) : ∃ r, f.badIndex = some r := by
  rw [← Option.isSome_iff_exists, Option.isSome_iff_ne_none, ne_eq, badIndex_eq_none]
  omega

/-- The cycle of a record of enum members with a bad index raises `OutOfRange` of it, unless the word is squashed or an
older access is misaligned. -/
theorem clockCycle_of_badIndex {r : Nat} (running : s.frozen = false) (noFlush : flushSignal s = false)
    (noMemError : memError s = none) (ho : Opcode.ofCode f.opcode ≠ none) (ha : AluOp.ofCode f.aluOp ≠ none)
    (bad : f.badIndex = some r) :
    clockCycle (some f) s = { s with fault := some ⟨.outOfRange r, s.ifid.instNo, s.cycles + 1⟩ } := by
  obtain ⟨o, ho⟩ := Option.ne_none_iff_exists'.mp ho
  obtain ⟨a, ha⟩ := Option.ne_none_iff_exists'.mp ha
  have check : decodeResult (some f) s = .error (.outOfRange r) := by
    simp [decodeResult, checkFields, ho, ha, bad]
  exact clockCycle_of_decodeResult_error running noFlush noMemError check

/-- An instruction's record lists its register operands in order, with 0 for the ones it has not (R100). -/
theorem badIndex_fieldsOf (i : Instr) : (fieldsOf i).badIndex = i.registers.find? fun q => 31 < q := by
  cases i with
  | add | sub | and | or | xor | slt | nop | halt => rfl
  | addi | lw | sw | beq | bne =>
    simp [RawFields.badIndex, fieldsOf, fieldsLoadImm, fieldsStore, fieldsBranch, Instr.registers, List.find?_cons]

/-- An instruction's record is made of enum members (R100). -/
theorem fieldsOf_members (i : Instr) :
    Opcode.ofCode (fieldsOf i).opcode ≠ none ∧ AluOp.ofCode (fieldsOf i).aluOp ≠ none := by
  cases i <;> simp [fieldsOf, fieldsN, fieldsR, fieldsLoadImm, fieldsStore, fieldsBranch]

/-- Settles O31: the check's index error, for a decoder's record and for an instruction's own. -/
theorem illFormedInstructionRaisesOutOfRange : Obligations.IllFormedInstructionRaisesOutOfRange := by
  refine ⟨fun dec f s running noFlush noMemError answer ho ha above => ?_,
    fun i s ill running noFlush noMemError => ?_⟩
  · obtain ⟨r, bad⟩ := exists_badIndex above
    refine ⟨r, bad, lt_of_badIndex bad, ?_⟩
    rw [cycleWith, answer, clockCycle_of_badIndex running noFlush noMemError ho ha bad]
  · obtain ⟨r, bad⟩ : ∃ r, i.registers.find? (fun q => 31 < q) = some r := by
      simpa [Instr.wellFormed, validReg, ← Option.isSome_iff_exists] using ill
    obtain ⟨ho, ha⟩ := fieldsOf_members i
    refine ⟨r, bad, ?_⟩
    rw [exec_eq_clockCycle, clockCycle_of_badIndex running noFlush noMemError ho ha ((badIndex_fieldsOf i).trans bad)]

/-! ### The frame of a cycle -/

/-- Only HALT's record has HALT's opcode. -/
theorem eq_halt_of_fieldsOf {word : Word} {d : Decoded} (h : checkFields word (some (fieldsOf i)) = .ok d)
    (halt : d.opcode = .halt) : i = .halt := by
  have opcode := (checkFields_eq_ok h).1
  rw [halt] at opcode
  cases i with
  | halt => rfl
  | nop | add | sub | and | or | xor | slt | addi | lw | sw | beq | bne =>
    simp [fieldsOf, fieldsN, fieldsR, fieldsLoadImm, fieldsStore, fieldsBranch] at opcode

/-- Settles O47: a frozen or failing cycle changes nothing else, and a clock edge changes what Writeback, Memory and the
Fetch unit say. -/
theorem everyInstructionFrame : Obligations.EveryInstructionFrame := by
  intro i s t banks wf h
  cases (exec_eq_clockCycle i s).symm.trans h
  refine ⟨clockCycle_imem _ s, ?_⟩
  rcases clockCycle_cases (some (fieldsOf i)) s with ⟨-, h⟩ | ⟨e, running, -, h⟩ | ⟨running, noError, h⟩ <;> rw [h]
  · exact ⟨fun _ _ => rfl, fun _ _ => rfl, fun _ => rfl, fun h => absurd rfl h, fun h => absurd rfl h⟩
  · obtain ⟨notHalted, -⟩ := frozen_eq_false_iff.mp running
    exact ⟨fun _ _ => rfl, fun _ _ => rfl, fun halted => by simp [notHalted] at halted, fun _ => rfl,
      fun h => absurd rfl h⟩
  · obtain ⟨notHalted, -⟩ := frozen_eq_false_iff.mp running
    obtain ⟨noMemError, -, -⟩ := cycleError_eq_none.mp noError
    refine ⟨fun r other => ?_, fun k outside => ?_, fun halted => by simp [notHalted] at halted,
      fun h => absurd rfl h, fun change stopped => ?_⟩
    · rw [State.commit_regs, regsNext_committed banks.1, bankGet_regsAfterWb, if_neg]
      rintro ⟨writes, rfl, -⟩
      simp [writes] at other
    · rw [State.commit_dmem, dmemNext_eq, State.dmemAfterMem]
      split
      · next store =>
        have aligned := isWordAddress_of_memError_eq_none noMemError (.inr store)
        exact Memory.readByte_writeWord_outside wf aligned _ (outside.resolve_left fun h => h store)
      · rfl
    · rw [State.commit_fetchStopped, fetchStoppedNext_eq] at change stopped
      have halt : haltDec (some (fieldsOf i)) s = true :=
        (Bool.or_eq_true_iff.mp stopped).resolve_left fun before => change (by simp [before])
      obtain ⟨-, d, hd, opcode⟩ := haltDec_eq_true_iff.mp halt
      exact eq_halt_of_fieldsOf hd opcode

end

end Sys2Proof.Machine
end

section
/-! SUPPORT. The order of the numbers in the latches (R41, R216 (f)), and the invariants at reset. -/

namespace Sys2Proof.Machine

/-- Bubbles aside, `younger` was handed out after `older` (R41). -/
def InstNo.Precedes (younger older : InstNo) : Prop := younger ≠ 0#64 → older ≠ 0#64 → older < younger

@[simp] theorem InstNo.precedes_zero (n : InstNo) : InstNo.Precedes n 0#64 := fun _ h => absurd rfl h
@[simp] theorem InstNo.zero_precedes (n : InstNo) : InstNo.Precedes 0#64 n := fun h => absurd rfl h

section
variable {s : State} {v : Option RawFields}

/-- The order with the bubbles left in: every pair of latches, each with all those behind it. -/
theorem inOrder_iff : s.InOrder ↔ s.nextInstNo ≠ 0 ∧
    [s.nextInstNo, s.ifid.instNo, s.idex.instNo, s.exmem.instNo, s.memwb.instNo].Pairwise InstNo.Precedes := by
  simp only [State.InOrder, List.pairwise_filter, bne_iff_ne]
  rfl

/-- The number after a number is younger than all that number is younger than; if it wraps, it is a bubble's (U11). -/
theorem InstNo.succ_precedes {n older : InstNo} (number : n ≠ 0#64)
    (h : InstNo.Precedes n older) : InstNo.Precedes (n + 1#64) older := by
  intro _ olderNumber
  have less := h number olderNumber
  bv_omega

theorem InstNo.succ_precedes_self (n : InstNo) : InstNo.Precedes (n + 1#64) n := by
  intro noWrap _
  bv_omega

theorem idexNext_instNo_cases (v : Option RawFields) (s : State) :
    (idexNext v s).instNo = 0 ∨ (idexNext v s).instNo = s.ifid.instNo := by
  rcases idexNext_cases v s with h | ⟨d, -, -, -, h⟩ <;> rw [h]
  · exact .inl rfl
  · exact .inr rfl

/-- A clock edge moves each number one latch on, drops the one in Writeback, and may put the next number in front. -/
theorem commit_inOrder (order : s.InOrder) (noWrap : s.nextInstNo + 1#64 ≠ 0#64) (v : Option RawFields) :
    (s.commit v).InOrder := by
  obtain ⟨number, pairs⟩ := inOrder_iff.mp order
  have number : s.nextInstNo ≠ 0#64 := number
  rw [inOrder_iff]
  have moved : (exmemNext s).instNo = s.idex.instNo ∧ (memwbNext s).instNo = s.exmem.instNo := ⟨rfl, rfl⟩
  simp only [List.pairwise_cons, List.forall_mem_cons, List.not_mem_nil, false_implies, implies_true, and_true,
    List.Pairwise.nil] at pairs
  obtain ⟨⟨nextIfid, nextIdex, nextExmem, -⟩, ⟨ifidIdex, ifidExmem, -⟩, ⟨idexExmem, -⟩, -⟩ := pairs
  have idexNo := idexNext_instNo_cases v s
  rcases fetchRow_cases v s with ⟨row, flush⟩ | ⟨row, -, stall⟩ | ⟨row, -⟩ | ⟨row, -⟩
  · simp [instNoNext, ifidNext, row, idexNext_of_flush flush, IfId.bubble, IdEx.bubble, moved, number, nextIdex, nextExmem,
      idexExmem]
  · simp [instNoNext, ifidNext, row, idexNext_of_stall stall, IdEx.bubble, moved, number, nextIfid, nextIdex, nextExmem,
      ifidIdex, ifidExmem, idexExmem]
  · rcases idexNo with h | h <;>
      simp [instNoNext, ifidNext, row, h, IfId.bubble, moved, number, nextIfid, nextIdex, nextExmem, ifidIdex, ifidExmem,
        idexExmem]
  · have younger {older : InstNo} := InstNo.succ_precedes (older := older) number
    rcases idexNo with h | h <;>
      simp [instNoNext, ifidNext, row, h, moved, noWrap, InstNo.succ_precedes_self, younger, nextIfid, nextIdex,
        nextExmem, ifidIdex, ifidExmem, idexExmem]

end

/-- Settles O53: a frozen or failing cycle keeps the numbers, and a clock edge keeps their order. -/
theorem stepKeepsProgramOrder : Obligations.StepKeepsProgramOrder := by
  intro s t order noWrap h
  cases (step_eq_cycleWith_refdec s).symm.trans h
  rcases clockCycle_cases (refdec s.ifid.instruction) s with ⟨-, h⟩ | ⟨e, -, -, h⟩ | ⟨-, -, h⟩ <;> rw [cycleWith, h]
  · exact order
  · exact order
  · exact commit_inOrder order noWrap _

/-- Settles O50: all latches are empty, so the next number is the only one; the loaded images are canonical. -/
theorem invariantsHoldAtReset : Obligations.InvariantsHoldAtReset := by
  refine fun p wf => ⟨resetWith_pipelineInv wf, inOrder_iff.mpr ⟨nofun, ?_⟩, Memory.ofImage_wf _, Memory.ofImage_wf _⟩
  simp [IfId.bubble, IdEx.bubble, ExMem.bubble, MemWb.bubble]

end Sys2Proof.Machine
end
